-- ==== Sys2Proof/Word.lean ====
section
/-! DEFINITION. The words and bytes of the XMC FCE CRC core: a command is a sequence of 32-bit words
(30_encoding.md R50), a byte is a natural in 0 .. 255 (00_scope.md R13). -/

namespace Sys2Proof

/-- A 32-bit word: a command word (R50), and the container of a channel's `w`-bit values
(R8; the bits above `w` are 0 in every reachable state, log entry 7). -/
abbrev Word := BitVec 32

/-- A byte of a COMPUTE's data operand (R13). -/
abbrev Byte := BitVec 8

end Sys2Proof
end

