-- ==== Sys2Proof/Config.lean ====
section
/-! DEFINITION. The two parameters the spec leaves OPEN (00_scope.md R7, R9; 92_eei_decisions.md D6, D24).
Neither constant below has a body, so no proof can rest on a value of it. -/

namespace Sys2Proof

/-- Which of its two admissible values POLY8 has: true for 0x1D, false for 0x07 (R7, D6; log entry 2). -/
opaque Config.poly8Is1D : Bool

/-- `POLY8`, the CRC-8 generator polynomial: 0x07 or 0x1D, left open (R7). -/
def Config.poly8 : Word := if Config.poly8Is1D then 0x1D#32 else 0x07#32

/-- How many channel slots the block has beyond the first (R9, D24; log entry 1). -/
opaque Config.moreSlots : Nat

/-- `NCH`, the number of channel slots: open, at least 1 (R9). `NCH = 4` models the original peripheral. -/
def Config.nch : Nat := Config.moreSlots + 1

end Sys2Proof
end

