-- ==== Sys2Proof/Syntax.lean ====
section
/-! DEFINITION. The commands of the block, one constructor per row of spec/opcode_table.json
(30_encoding.md R48, R52; 41_channel.md R81 to R86), and the closed set of refusal reasons
(60_exceptions.md R95). -/

namespace Sys2Proof

/-- The checksum width: a closed enumeration (00_scope.md R5). -/
inductive Width where
  | w8
  | w16
  | w32
deriving DecidableEq, Repr

/-- The two flags EVENT can name (41_channel.md R86). -/
inductive EventKind where
  | mismatch
  | lengthError
deriving DecidableEq, Repr

/-- The commands. The operands `seed`, `ec` and `el` are naturals and the data is a byte sequence of any
length, as R81 to R84 give them; the encoding's ranges are in WellFormed.lean. -/
inductive Instr where
  /-- NEW w, ri, ro, xo, seed (R81). -/
  | new (w : Width) (ri ro xo : Bool) (seed : Nat)
  /-- RESET seed (R82). -/
  | reset (seed : Nat)
  /-- ENCHK expected_check, expected_length (R83). -/
  | enchk (ec el : Nat)
  /-- COMPUTE data (R84). -/
  | compute (data : List Byte)
  /-- TRIGMM (R85). -/
  | trigmm
  /-- EVENT kind (R86). -/
  | event (k : EventKind)
deriving DecidableEq, Repr

/-- The refusal reasons, a closed set (R95). -/
inductive Reason where
  /-- Code 1: the header's opcode spells no command (decoder, R61). -/
  | reservedOpcode
  /-- Code 2: a reserved header bit is 1 (decoder, R62). -/
  | reservedBits
  /-- Code 3: NEW's width code is 3 (decoder, R54). -/
  | reservedWidth
  /-- Code 4: the stream ends inside the command (decoder, R64). -/
  | truncated
  /-- Code 5: a command other than NEW to an Absent slot (R87). -/
  | noChannel
  /-- Code 6: NEW or RESET with a seed of `2^w` or more (R8). -/
  | seedRange
  /-- Code 7: ENCHK with an expected check of `2^w` or more (R8). -/
  | checkRange
deriving DecidableEq, Repr

end Sys2Proof
end

