-- ==== Sys2Proof/Machine/State.lean ====
section
/-! DEFINITION. The architectural state of the block (10_state.md R15 to R33), the refusal mark
(60_exceptions.md R96), the command and response interface as data (30_encoding.md R48, R49), and the state
after a block reset (70_reset_and_hazards.md R109). The block has no memory (20_memory.md R34), no program
counter (R30) and no general registers (R29). -/

namespace Sys2Proof.Machine

/-- The three boolean parameters of a channel that the Engine takes (R17 to R19, R73). -/
structure Params where
  /-- `reflect_in`: reflect each input unit (R17, R69). -/
  reflectIn : Bool
  /-- `reflect_out`: reflect the final register (R18, R72). -/
  reflectOut : Bool
  /-- `invert_out`: XOR the final register with all ones (R19, R72). -/
  invertOut : Bool
deriving DecidableEq, Repr

/-- A present channel (R15). Values of `w` bits stand in 32-bit words, below `2^w` in every reachable state
(R8; log entry 7). -/
structure Channel where
  /-- `ch.w` (R16). -/
  w : Width
  /-- `ch.reflect_in`, `ch.reflect_out`, `ch.invert_out` (R17 to R19). -/
  params : Params
  /-- `ch.seed`, the configured initial value (R20). -/
  seed : Word
  /-- `ch.reg`, the accumulator (R21). -/
  reg : Word
  /-- `ch.check_enabled`: false is Idle, true is Configured-for-check (R22, R28). -/
  checkEnabled : Bool
  /-- `ch.expected_check` (R23). -/
  expectedCheck : Word
  /-- `ch.expected_length`, an unbounded natural (R24). -/
  expectedLength : Nat
  /-- `ch.mismatch_flag` (R26). -/
  mismatchFlag : Bool
  /-- `ch.length_error_flag` (R27). -/
  lengthErrorFlag : Bool
deriving DecidableEq, Repr

/-- What a command answers on its slot's response interface (R49). -/
inductive Response where
  /-- NEW, RESET, ENCHK, TRIGMM: carries no value. -/
  | ack
  /-- COMPUTE: the checksum, the register, the mismatch flag and the length error flag. -/
  | computed (checksum register : Word) (mismatch lengthError : Bool)
  /-- EVENT: the current flag of the named kind. -/
  | flag (value : Bool)
deriving DecidableEq, Repr

/-- A refusal mark: the reason, and the number of commands before the refused one in its stream (R95, R96). -/
structure Mark where
  reason : Reason
  position : Nat
deriving DecidableEq, Repr

/-- A channel slot with its own command stream and response interface (R15, R48, R49). -/
structure Slot where
  /-- `none` is Absent, `some ch` is Present(ch) (R15). -/
  channel : Option Channel
  /-- The refusal mark, `none` where it is clear (R96). -/
  mark : Option Mark
  /-- The words the host has sent that are not yet part of an accepted command (R48; log entry 6). -/
  stream : List Word
  /-- The position in the stream: how many commands the slot has accepted (R30, R95). -/
  position : Nat
  /-- The responses so far, oldest first (R49, R117; log entry 6). -/
  responses : List Response
deriving DecidableEq, Repr

/-- The block and its host interface. `sel` and `schedule` are the model's own fields: which slot's turn it
is, and whose turns follow (R44; log entry 3). -/
structure State where
  /-- The channel slots, indexed `0 .. NCH-1` (R15). -/
  slots : List Slot
  /-- The slot whose command is executed now (log entry 3). -/
  sel : Nat
  /-- The slots whose turns come next, in order (log entry 3). -/
  schedule : List Nat
deriving DecidableEq, Repr

/-- Why a step stops without a next state. No behaviour of the block is a fault (R93, R99). -/
inductive Fault where
  /-- Raised by `State.command` and `fetch`: the host's turn names a slot outside `0 .. NCH-1`, which does not
  exist (R15; log entry 8). Safe: nothing follows from a stop. -/
  | noSuchSlot
deriving DecidableEq, Repr

/-- Why an instruction has no meaning in the model. The spec's own refusals (R95) are not here: their effect,
the refusal mark, is a next state (R96; log entry 4). -/
inductive Refusal where
  /-- Raised by an arm of `exec` that has no meaning yet; no arm raises it. Safe. -/
  | notModelled (mnemonic : String)
deriving DecidableEq, Repr

/-- A slot after a block reset: Absent, its mark clear (R109), its run not begun (R95 counts positions from 0;
log entry 17). -/
def Slot.absent : Slot :=
  { channel := none, mark := none, stream := [], position := 0, responses := [] }

/-- The block after a block reset: every one of its `NCH` slots Absent and every mark clear (R109). -/
def State.reset : State :=
  { slots := List.replicate Config.nch Slot.absent, sel := 0, schedule := [] }

end Sys2Proof.Machine
end

