-- ==== Sys2Proof/Machine/Flags.lean ====
section
/-! DEFINITION. The two status flags of a channel (10_state.md R26, R27): how COMPUTE clears and sets them
(41_channel.md R84 steps 1 and 4, R88, R90), how TRIGMM forces one (R85), how EVENT reads them (R86). -/

namespace Sys2Proof.Machine

/-- Both flags cleared (R84 step 1). -/
def clearFlags (ch : Channel) : Channel :=
  { ch with mismatchFlag := false, lengthErrorFlag := false }

/-- R84 step 4: in check mode each flag is set where its own comparison fails, neither test depending on the
other's outcome (R90); out of check mode nothing changes. -/
def checkResult (checksum : Word) (wordCount : Nat) (ch : Channel) : Channel :=
  if ch.checkEnabled then
    { ch with
      mismatchFlag := if checksum ≠ ch.expectedCheck then true else ch.mismatchFlag
      lengthErrorFlag := if wordCount ≠ ch.expectedLength then true else ch.lengthErrorFlag }
  else ch

/-- The mismatch flag forced (R85). -/
def forceMismatch (ch : Channel) : Channel :=
  { ch with mismatchFlag := true }

/-- The current flag of a kind, which reading does not clear (R86). -/
def flagOf (k : EventKind) (ch : Channel) : Bool :=
  match k with
  | .mismatch => ch.mismatchFlag
  | .lengthError => ch.lengthErrorFlag

end Sys2Proof.Machine
end

