-- ==== Sys2Proof/WellFormed.lean ====
section
/-! DEFINITION. Which commands the encoding of 30_encoding.md can carry: each operand word holds 32 bits
(R53, R55, R56) and COMPUTE's byte count N is below 2^32 (R57, D26). The range checks against the channel's
width are semantic (60_exceptions.md R95) and stand with the meanings. -/

namespace Sys2Proof

/-- The operands of the command fit the operand words of its format. -/
def Instr.wf : Instr → Bool
  | .new _ _ _ _ seed => decide (seed < 2 ^ 32)
  | .reset seed => decide (seed < 2 ^ 32)
  | .enchk ec el => decide (ec < 2 ^ 32) && decide (el < 2 ^ 32)
  | .compute data => decide (data.length < 2 ^ 32)
  | .trigmm => true
  | .event _ => true

end Sys2Proof
end

