-- ==== Sys2Proof/Decode.lean ====
section
/-! DEFINITION. The decoder, total on every word sequence and every byte sequence, refusing by name
(30_encoding.md R50 to R64), and after it the encoder, from the same formats. -/

namespace Sys2Proof

/-- What the decoder makes of a word sequence: a command and the words after it, or a refusal reason (R63). -/
inductive Decoded where
  | command (i : Instr) (rest : List Word)
  | reject (r : Reason)
deriving DecidableEq, Repr

/-- The six opcodes of R52. -/
inductive Opcode where
  | new
  | reset
  | enchk
  | compute
  | trigmm
  | event
deriving DecidableEq, Repr

/-! ### Words and bytes (R50) -/

/-- A word serialised as bytes, bits 7:0 first (R50). -/
def bytesOfWord (v : Word) : List Byte :=
  [v.extractLsb' 0 8, v.extractLsb' 8 8, v.extractLsb' 16 8, v.extractLsb' 24 8]

/-- The word whose bytes are `b0` (bits 7:0), `b1`, `b2`, `b3` (R50, R57). -/
def wordOfBytes (b0 b1 b2 b3 : Byte) : Word :=
  b0.setWidth 32 ||| (b1.setWidth 32 <<< 8) ||| (b2.setWidth 32 <<< 16) ||| (b3.setWidth 32 <<< 24)

/-- A word sequence carried as bytes (R50). -/
def bytesOfWords (ws : List Word) : List Byte :=
  ws.flatMap bytesOfWord

/-- The whole words of a byte sequence; fewer than four bytes at its end make no word (R50). -/
def wordsOfBytes : List Byte → List Word
  | b0 :: b1 :: b2 :: b3 :: rest => wordOfBytes b0 b1 b2 b3 :: wordsOfBytes rest
  | _ => []

/-! ### Header fields -/

/-- `H[3:0]` (R51, R52); the ten reserved values spell no command (R61). -/
def opcodeOf (h : Word) : Option Opcode :=
  match (h.extractLsb' 0 4).toNat with
  | 1 => some .new
  | 2 => some .reset
  | 3 => some .enchk
  | 4 => some .compute
  | 5 => some .trigmm
  | 6 => some .event
  | _ => none

/-- The reserved bits of each opcode's header, which must be 0 (R51, R53, R55 to R57, R59, R60). -/
def reservedMask : Opcode → Word
  | .new => 0xFFFFFE00#32
  | .reset => 0xFFFFFFF0#32
  | .enchk => 0xFFFFFFF0#32
  | .compute => 0xFFFFFFF0#32
  | .trigmm => 0xFFFFFFF0#32
  | .event => 0xFFFFFFE0#32

/-- The width a width code selects; 3 is reserved (R54). -/
def widthOfCode (wc : BitVec 2) : Option Width :=
  match wc.toNat with
  | 0 => some .w8
  | 1 => some .w16
  | 2 => some .w32
  | _ => none

/-- The number of data words that carry `n` bytes, `ceil(n/4)` (R57). -/
def dataWords (n : Nat) : Nat := (n + 3) / 4

/-! ### One decoder per format; `ops` are the words after the header -/

/-- NEW: width code before length (R53, R54, R63). -/
def decodeNew (h : Word) (ops : List Word) : Decoded :=
  match widthOfCode (h.extractLsb' 4 2) with
  | none => .reject .reservedWidth
  | some w =>
    match ops with
    | seed :: rest => .command (.new w (h.getLsbD 6) (h.getLsbD 7) (h.getLsbD 8) seed.toNat) rest
    | [] => .reject .truncated

/-- RESET (R55). -/
def decodeReset (ops : List Word) : Decoded :=
  match ops with
  | seed :: rest => .command (.reset seed.toNat) rest
  | [] => .reject .truncated

/-- ENCHK (R56). -/
def decodeEnchk (ops : List Word) : Decoded :=
  match ops with
  | ec :: el :: rest => .command (.enchk ec.toNat el.toNat) rest
  | _ => .reject .truncated

/-- COMPUTE: `N`, then `ceil(N/4)` data words, the first `N` of whose bytes are the data (R57); the padding
bytes after them may hold any value (R58). -/
def decodeCompute (ops : List Word) : Decoded :=
  match ops with
  | n :: ws =>
    if ws.length < dataWords n.toNat then .reject .truncated
    else .command (.compute ((bytesOfWords (ws.take (dataWords n.toNat))).take n.toNat)) (ws.drop (dataWords n.toNat))
  | [] => .reject .truncated

/-- The kind EVENT names, `H[4]` (R60). -/
def decodeEvent (h : Word) (ops : List Word) : Decoded :=
  .command (.event (if h.getLsbD 4 then .lengthError else .mismatch)) ops

/-- The format of an opcode, its reserved bits already found 0 (R53 to R60). -/
def decodeFormat (op : Opcode) (h : Word) (ops : List Word) : Decoded :=
  match op with
  | .new => decodeNew h ops
  | .reset => decodeReset ops
  | .enchk => decodeEnchk ops
  | .compute => decodeCompute ops
  | .trigmm => .command .trigmm ops
  | .event => decodeEvent h ops

/-- The decoder on words, checking in the order of R63: reserved opcode, reserved bits, reserved width,
stream too short. The empty sequence, which a step never gives it (R64: it is the end of the run), is
refused as TRUNCATED (log entry 10). -/
def decode : List Word → Decoded
  | [] => .reject .truncated
  | h :: ops =>
    match opcodeOf h with
    | none => .reject .reservedOpcode
    | some op => if h &&& reservedMask op ≠ 0#32 then .reject .reservedBits else decodeFormat op h ops

/-- The decoder on a stream carried as bytes (R50): it decodes the stream's whole words. A stream that ends
inside a word a command needs is TRUNCATED (R64; log entry 10). -/
def decodeBytes (bs : List Byte) : Decoded :=
  decode (wordsOfBytes bs)

/-! ### The encoder -/

/-- The width code of a width (R54). -/
def codeOfWidth : Width → Word
  | .w8 => 0#32
  | .w16 => 1#32
  | .w32 => 2#32

/-- A boolean field of a header (R53, R60). -/
def flagBit (b : Bool) : Word := if b then 1#32 else 0#32

/-- The header word of a command (R53, R55 to R57, R59, R60). -/
def headerOf : Instr → Word
  | .new w ri ro xo _ =>
    1#32 ||| (codeOfWidth w <<< 4) ||| (flagBit ri <<< 6) ||| (flagBit ro <<< 7) ||| (flagBit xo <<< 8)
  | .reset _ => 2#32
  | .enchk _ _ => 3#32
  | .compute _ => 4#32
  | .trigmm => 5#32
  | .event k => 6#32 ||| (flagBit (decide (k = .lengthError)) <<< 4)

/-- Data bytes packed four to a word, byte `i` in bits `[8*(i mod 4)+7 : 8*(i mod 4)]` of word `floor(i/4)`
(R57). The padding bytes, which R58 lets hold any value, are written 0 (log entry 11). -/
def packBytes : List Byte → List Word
  | [] => []
  | [a] => [wordOfBytes a 0#8 0#8 0#8]
  | [a, b] => [wordOfBytes a b 0#8 0#8]
  | [a, b, c] => [wordOfBytes a b c 0#8]
  | a :: b :: c :: d :: rest => wordOfBytes a b c d :: packBytes rest

/-- The operand words of a command (R53, R55 to R57). -/
def operandsOf : Instr → List Word
  | .new _ _ _ _ seed => [BitVec.ofNat 32 seed]
  | .reset seed => [BitVec.ofNat 32 seed]
  | .enchk ec el => [BitVec.ofNat 32 ec, BitVec.ofNat 32 el]
  | .compute data => BitVec.ofNat 32 data.length :: packBytes data
  | .trigmm => []
  | .event _ => []

/-- The words of a command (R50). -/
def encode (i : Instr) : List Word :=
  headerOf i :: operandsOf i

/-- The number of words of a command (R53, R55 to R57, R59, R60). -/
def Instr.words : Instr → Nat
  | .new _ _ _ _ _ => 2
  | .reset _ => 2
  | .enchk _ _ => 3
  | .compute data => 2 + dataWords data.length
  | .trigmm => 1
  | .event _ => 1

/-! ### Words as spec/opcode_table.json numbers their bits -/

/-- The number of words of the command whose header is `h` and whose first operand word, if any, is `n`;
1 where the header spells no command (R63). -/
def commandWords (h n : Word) : Nat :=
  match opcodeOf h with
  | none => 1
  | some .new => 2
  | some .reset => 2
  | some .enchk => 3
  | some .compute => 2 + dataWords n.toNat
  | some .trigmm => 1
  | some .event => 1

/-- The first `k` 32-bit words of the number `v`, the least significant first. -/
def wordsOfNat (k v : Nat) : List Word :=
  (List.range k).map fun j => BitVec.ofNat 32 (v >>> (32 * j))

/-- The words of the instruction whose lowest `nbits` bits are `v` (bit 0 the least significant bit of the
first word) and whose bits above are 0, up to the command's length (R63; log entry 9). -/
def tableWords (nbits v : Nat) : List Word :=
  let ws := wordsOfNat (max 1 ((nbits + 31) / 32)) (v % 2 ^ nbits)
  ws ++ List.replicate (commandWords (ws.getD 0 0#32) (ws.getD 1 0#32) - ws.length) 0#32

/-- The command the decoder reads from an instruction laid out as bytes, each word little-endian (R50). -/
def decodeTableWord (nbits w : Nat) : Option Instr :=
  match decodeBytes (bytesOfWords (tableWords nbits w)) with
  | .command i _ => some i
  | .reject _ => none

end Sys2Proof
end

