-- ==== Sys2Proof/Machine/Ops.lean ====
section
/-! DEFINITION. The named operations on the state: a command to the selected slot, its acceptance and its
refusal (60_exceptions.md R95, R96), the turn from one slot to the next, and what the host may do between steps
(30_encoding.md R48, 70_reset_and_hazards.md R109). The block takes no exception and returns from none (R93,
R99): the refusal below is its one shared way of not executing a command. -/

namespace Sys2Proof.Machine

/-- The code of a refusal reason (R95). -/
def reasonCode : Reason → Nat
  | .reservedOpcode => 1
  | .reservedBits => 2
  | .reservedWidth => 3
  | .truncated => 4
  | .noChannel => 5
  | .seedRange => 6
  | .checkRange => 7

/-- What a command makes of its slot's channel: the channel after it and the response, or a refusal. -/
inductive Answer where
  | accept (ch : Channel) (r : Response)
  | refuse (r : Reason)
deriving DecidableEq, Repr

/-- An accepted command of `len` words: the channel after it, its words taken from the stream, the position
advanced by one command (R30), exactly one response given (R49). -/
def acceptAt (len : Nat) (ch : Channel) (r : Response) (sl : Slot) : Slot :=
  { sl with
    channel := some ch
    stream := sl.stream.drop len
    position := sl.position + 1
    responses := sl.responses ++ [r] }

/-- A refused command: no channel state written, no response; the mark is set to the reason and the position of
the refused command (R95, R96). The command stays in the stream, unaccepted (R30; log entry 5). -/
def refuseAt (r : Reason) (sl : Slot) : Slot :=
  { sl with mark := some { reason := r, position := sl.position } }

/-- The selected slot, if the block has it. -/
def selected (s : State) : Option Slot := s.slots[s.sel]?

/-- The state with its selected slot replaced; no other slot changes (R15, R103). -/
def putSlot (sl : Slot) (s : State) : State :=
  { s with slots := s.slots.set s.sel sl }

/-- What an answer makes of the slot. -/
def settle (len : Nat) (a : Answer) (sl : Slot) : Slot :=
  match a with
  | .accept ch r => acceptAt len ch r sl
  | .refuse r => refuseAt r sl

/-- A command of `len` words to the selected slot, one indivisible step (20_memory.md R42). While the slot's
mark is set it executes no command (R96; log entry 15). A slot the block does not have is a fault
(log entry 8). -/
def command (len : Nat) (act : Option Channel → Answer) (s : State) : Host.Outcome State Fault Refusal :=
  match selected s with
  | none => .fault .noSuchSlot
  | some sl =>
    match sl.mark with
    | some _ => .next s
    | none => .next (putSlot (settle len (act sl.channel) sl) s)

/-- A command that an Absent slot refuses with NO_CHANNEL (41_channel.md R87). -/
def onPresent (f : Channel → Answer) : Option Channel → Answer
  | none => .refuse .noChannel
  | some ch => f ch

/-- The selected slot marked: what a refusal of the decoder does (R63, R96). -/
def rejectCommand (r : Reason) (s : State) : State :=
  match selected s with
  | none => s
  | some sl => putSlot (refuseAt r sl) s

/-- The turn passes to the next slot of the schedule; with none left the same slot keeps it (R44; log entry 3). -/
def endTurn (s : State) : State :=
  { s with sel := s.schedule.headD s.sel, schedule := s.schedule.tail }

/-- The turn passes after an outcome that has a next state. -/
def thenEndTurn : Host.Outcome State Fault Refusal → Host.Outcome State Fault Refusal
  | .next s => .next (endTurn s)
  | .fault f => .fault f
  | .refused r => .refused r

/-! ### What the host may do between steps (60_exceptions.md R101) -/

/-- The host sends words to slot `k` (R48). A command that is to be executed must be there in full by the slot's
turn (log entry 20). -/
def send (k : Nat) (ws : List Word) (s : State) : State :=
  { s with slots := s.slots.modify k fun sl => { sl with stream := sl.stream ++ ws } }

/-- The host gives the turn to `k`, and then to the slots of `next` (R44; log entry 3). -/
def giveTurns (k : Nat) (next : List Nat) (s : State) : State :=
  { s with sel := k, schedule := next }

/-- A block reset: every slot Absent, every mark clear, every slot started afresh (R109, C9; log entry 13). -/
def blockReset (s : State) : State :=
  { slots := s.slots.map fun _ => Slot.absent, sel := 0, schedule := [] }

end Sys2Proof.Machine
end

