-- ==== Sys2Proof/Machine/Check.lean ====
section
/-! DEFINITION. The commands on the flags alone: TRIGMM and EVENT (41_channel.md R85, R86). -/

namespace Sys2Proof.Machine

/-- TRIGMM on a present channel, in either check state (R85; D12). -/
def trigmmAnswer (ch : Channel) : Answer :=
  .accept (forceMismatch ch) .ack

/-- EVENT on a present channel: it answers the flag and changes nothing (R86). -/
def eventAnswer (k : EventKind) (ch : Channel) : Answer :=
  .accept ch (.flag (flagOf k ch))

/-- TRIGMM (R85). -/
def execTrigmm (s : State) : Host.Outcome State Fault Refusal :=
  command Instr.trigmm.words (onPresent trigmmAnswer) s

/-- EVENT (R86). -/
def execEvent (k : EventKind) (s : State) : Host.Outcome State Fault Refusal :=
  command (Instr.event k).words (onPresent (eventAnswer k)) s

end Sys2Proof.Machine
end

