-- ==== Sys2Proof/Machine/Operands.lean ====
section
/-! DEFINITION. Widths as numbers and the data operand of COMPUTE: how a byte sequence is cut into
little-endian units (00_scope.md R5, R6, R11; 20_memory.md R36 to R38; 40_engine.md R69). -/

namespace Sys2Proof.Machine

/-- The width `w` in bits (R5). -/
def bits : Width → Nat
  | .w8 => 8
  | .w16 => 16
  | .w32 => 32

/-- The unit size `U(w)` in bytes (R6). -/
def unitBytes : Width → Nat
  | .w8 => 1
  | .w16 => 2
  | .w32 => 4

/-- `MASK(w) = 2^w - 1` (R11). -/
def mask (w : Width) : Word := BitVec.ofNat 32 (2 ^ bits w - 1)

/-- The word count: whole units only, `floor(len(d) / U(w))` (R36, R38). -/
def unitCount (w : Width) (d : List Byte) : Nat := d.length / unitBytes w

/-- `DataUnit(d, k, w)`: the `U(w)` bytes from offset `U(w)*k`, the first in bits 7:0 (R37). For `k` below the
unit count every byte exists; the 0 for an absent byte is never reached (log entry 12). -/
def dataUnit (d : List Byte) (k : Nat) (w : Width) : Word :=
  (List.range (unitBytes w)).foldl
    (fun u j => u ||| ((d.getD (unitBytes w * k + j) 0#8).setWidth 32 <<< (8 * j))) 0#32

/-- `REFLECT(v, n)`: the `n`-bit value whose bit `n-1-i` is bit `i` of `v` (40_engine.md R67). -/
def reflect (v : Word) (n : Nat) : Word :=
  (List.range n).foldl (fun r i => if v.getLsbD i then r ||| (1#32 <<< (n - 1 - i)) else r) 0#32

/-- The unit as it enters the divider: reflected over its full width when `reflect_in` is set (R69). -/
def inputUnit (p : Params) (w : Width) (u : Word) : Word :=
  if p.reflectIn then reflect u (bits w) else u

end Sys2Proof.Machine
end

