-- ==== Sys2Proof/Machine/Engine.lean ====
section
/-! DEFINITION. The Engine: the polynomial divider and the output transform (40_engine.md R70 to R73), a pure
function with no state and no error (R76). It is the bitwise algorithm; the model has no other (R77). The `By`
forms take the generator polynomial as an argument, so that both admissible values of POLY8 can be written. -/

namespace Sys2Proof.Machine

/-- `POLY(w)`, without its `x^w` term (00_scope.md R7). -/
def poly : Width → Word
  | .w8 => Config.poly8
  | .w16 => 0x1021#32
  | .w32 => 0x04C11DB7#32

/-- One division step by the generator `g` (R70). -/
def divStepBy (g : Word) (w : Width) (r : Word) : Word :=
  if r.getLsbD (bits w - 1) then ((r <<< 1) &&& mask w) ^^^ g else (r <<< 1) &&& mask w

/-- Feeding one unit: XOR it into the register, then `w` division steps (R71). -/
def feedBy (g : Word) (w : Width) (r u : Word) : Word :=
  (divStepBy g w)^[bits w] (r ^^^ u)

/-- The raw register after the whole units of `d`, in sequence order, before the output transform
(R73 steps 1 and 2). -/
def rawBy (g : Word) (w : Width) (p : Params) (seed : Word) (d : List Byte) : Word :=
  (List.range (unitCount w d)).foldl (fun r k => feedBy g w r (inputUnit p w (dataUnit d k w))) seed

/-- `OUT(r, p, w)`: reflection, then inversion, then the mask (R72). -/
def out (w : Width) (p : Params) (r : Word) : Word :=
  let r1 := if p.reflectOut then reflect r (bits w) else r
  let r2 := if p.invertOut then r1 ^^^ mask w else r1
  r2 &&& mask w

/-- `CRC_ENGINE` with the generator `g` (R73). -/
def crcBy (g : Word) (w : Width) (p : Params) (seed : Word) (d : List Byte) : Word :=
  out w p (rawBy g w p seed d)

/-- `DIVSTEP(r, w)` (R70). -/
def divStep (w : Width) (r : Word) : Word := divStepBy (poly w) w r

/-- `FEED(r, u, w)` (R71). -/
def feed (w : Width) (r u : Word) : Word := feedBy (poly w) w r u

/-- The raw register of `CRC_ENGINE(w, p, seed, d)` (R73, R80). -/
def crcRaw (w : Width) (p : Params) (seed : Word) (d : List Byte) : Word := rawBy (poly w) w p seed d

/-- `CRC_ENGINE(w, p, seed, d)` (R73). -/
def crcEngine (w : Width) (p : Params) (seed : Word) (d : List Byte) : Word := crcBy (poly w) w p seed d

end Sys2Proof.Machine
end

