-- ==== Sys2Proof/Machine/Compute.lean ====
section
/-! DEFINITION. COMPUTE (41_channel.md R84, R88 to R91). -/

namespace Sys2Proof.Machine

/-- The checksum of `d` from the channel's current register (R84 step 2). -/
def checksumOf (d : List Byte) (ch : Channel) : Word :=
  crcEngine ch.w ch.params ch.reg d

/-- The channel after COMPUTE: flags cleared, the register at the checksum after the output transform, the
flags set by check mode (R84 steps 1 to 4). -/
def computedChannel (d : List Byte) (ch : Channel) : Channel :=
  checkResult (checksumOf d ch) (unitCount ch.w d) { clearFlags ch with reg := checksumOf d ch }

/-- COMPUTE on a present channel, with its four-part response (R84 step 5, R89). -/
def computeAnswer (d : List Byte) (ch : Channel) : Answer :=
  .accept (computedChannel d ch)
    (.computed (checksumOf d ch) (checksumOf d ch)
      (computedChannel d ch).mismatchFlag (computedChannel d ch).lengthErrorFlag)

/-- COMPUTE (R84). -/
def execCompute (d : List Byte) (s : State) : Host.Outcome State Fault Refusal :=
  command (Instr.compute d).words (onPresent (computeAnswer d)) s

end Sys2Proof.Machine
end

