-- ==== Sys2Proof/Machine/Configure.lean ====
section
/-! DEFINITION. The commands that configure a channel: NEW, RESET and ENCHK (41_channel.md R81 to R83). -/

namespace Sys2Proof.Machine

/-- The channel NEW builds: register at the seed, Idle, flags clear, expected values 0
(R81; 10_state.md R25, R33). -/
def builtChannel (w : Width) (p : Params) (seed : Word) : Channel :=
  { w := w
    params := p
    seed := seed
    reg := seed
    checkEnabled := false
    expectedCheck := 0#32
    expectedLength := 0
    mismatchFlag := false
    lengthErrorFlag := false }

/-- NEW, whatever the slot held before (R81; D9). -/
def newAnswer (w : Width) (ri ro xo : Bool) (seed : Nat) : Answer :=
  if 2 ^ bits w ≤ seed then .refuse .seedRange
  else .accept (builtChannel w { reflectIn := ri, reflectOut := ro, invertOut := xo } (BitVec.ofNat 32 seed)) .ack

/-- RESET on a present channel: the register alone (R82; D10). -/
def resetAnswer (seed : Nat) (ch : Channel) : Answer :=
  if 2 ^ bits ch.w ≤ seed then .refuse .seedRange
  else .accept { ch with reg := BitVec.ofNat 32 seed } .ack

/-- ENCHK on a present channel: check mode on, both expected values (R83; D11). -/
def enchkAnswer (ec el : Nat) (ch : Channel) : Answer :=
  if 2 ^ bits ch.w ≤ ec then .refuse .checkRange
  else .accept { ch with checkEnabled := true, expectedCheck := BitVec.ofNat 32 ec, expectedLength := el } .ack

/-- NEW (R81). -/
def execNew (w : Width) (ri ro xo : Bool) (seed : Nat) (s : State) : Host.Outcome State Fault Refusal :=
  command (Instr.new w ri ro xo seed).words (fun _ => newAnswer w ri ro xo seed) s

/-- RESET (R82). -/
def execReset (seed : Nat) (s : State) : Host.Outcome State Fault Refusal :=
  command (Instr.reset seed).words (onPresent (resetAnswer seed)) s

/-- ENCHK (R83). -/
def execEnchk (ec el : Nat) (s : State) : Host.Outcome State Fault Refusal :=
  command (Instr.enchk ec el).words (onPresent (enchkAnswer ec el)) s

end Sys2Proof.Machine
end

