-- ==== Sys2Proof/Machine/Dispatch.lean ====
section
/-! DEFINITION. One arm per command of spec/opcode_table.json. -/

namespace Sys2Proof.Machine

def exec (i : Instr) (s : State) : Host.Outcome State Fault Refusal :=
  match i with
  | .new w ri ro xo seed => Sys2Proof.Machine.execNew w ri ro xo seed s
  | .reset seed => Sys2Proof.Machine.execReset seed s
  | .enchk ec el => Sys2Proof.Machine.execEnchk ec el s
  | .compute data => Sys2Proof.Machine.execCompute data s
  | .trigmm => Sys2Proof.Machine.execTrigmm s
  | .event k => Sys2Proof.Machine.execEvent k s

end Sys2Proof.Machine
end

