-- ==== Sys2Proof/Machine/Fetch.lean ====
section
/-! DEFINITION. Taking the next command of the selected slot's stream (30_encoding.md R48, R63, R64), and
placing one there. The block fetches nothing from memory (20_memory.md R46). -/

namespace Sys2Proof.Machine

/-- What the selected slot's turn finds. -/
inductive Fetched where
  /-- The block has no such slot (log entry 8). -/
  | noSlot
  /-- Nothing to execute: the slot is marked (R96) or its stream is at its end (R64, R116). -/
  | quiet
  /-- The decoder refuses the stream's next command (R63). -/
  | rejected (r : Reason)
  /-- The next command. -/
  | command (i : Instr)
deriving DecidableEq, Repr

/-- The next command of a stream that is not at its end, as the decoder reads it. -/
def fetchedOf : Decoded → Fetched
  | .command i _ => .command i
  | .reject r => .rejected r

/-- What the turn of one slot finds: a marked slot takes no command (R96); a stream at a command boundary is at
its end (R64, R116). The spec has no sign that ends a stream while the host may still send: DESIGN CHOICE, the words
sent by the time of the turn are the whole stream, so a command sent only in part is TRUNCATED, while with no word
there the slot stays ready for the next command (unsafe; log entry 20). -/
def fetchSlot (sl : Slot) : Fetched :=
  match sl.mark, sl.stream with
  | some _, _ => .quiet
  | none, [] => .quiet
  | none, h :: ops => fetchedOf (decode (h :: ops))

/-- What the selected slot's turn finds. -/
def fetch (s : State) : Fetched :=
  match selected s with
  | none => .noSlot
  | some sl => fetchSlot sl

/-- The state with the words `ws` as the selected slot's stream and its mark clear, so that the next step takes
its command from them (log entry 9). -/
def placeWords (ws : List Word) (s : State) : State :=
  { s with slots := s.slots.modify s.sel fun sl => { sl with stream := ws, mark := none } }

end Sys2Proof.Machine
end

