-- ==== Sys2Proof/Machine/Step.lean ====
section
/-! DEFINITION. One step: the selected slot takes and executes the next command of its stream, and the turn
passes (30_encoding.md R48; 20_memory.md R42 to R44). -/

namespace Sys2Proof.Machine

/-- One step. A marked slot, or one whose stream is at its end, executes nothing in its turn (R96, R116); a
command the decoder refuses sets the mark (R63, R96). -/
def step (s : State) : Host.Outcome State Fault Refusal :=
  match fetch s with
  | .noSlot => .fault .noSuchSlot
  | .quiet => .next (endTurn s)
  | .rejected r => .next (endTurn (rejectCommand r s))
  | .command i => thenEndTurn (exec i s)

/-- The state whose next step takes the instruction with the bits `w` (log entry 9). -/
def State.withFetchWord (s : State) (nbits w : Nat) : State :=
  placeWords (tableWords nbits w) s

end Sys2Proof.Machine
end

