-- ==== Sys2Proof/Machine/Assembler.lean ====
section
/-! DEFINITION. The assembler syntax (30_encoding.md R65, R66): one line per command, its mnemonic, then its
operands separated by commas. A line is a list of characters. It is notation for the host; no step uses it.
What R65 does not fix of the notation is in log entry 18. -/

namespace Sys2Proof.Machine

/-- A blank between the parts of a line. -/
def isBlank (c : Char) : Bool := c = ' ' || c = '\t'

/-- A text without the blanks at its two ends. -/
def trimBlanks (cs : List Char) : List Char :=
  ((cs.dropWhile isBlank).reverse.dropWhile isBlank).reverse

/-- A text cut at its commas. -/
def splitCommas : List Char → List (List Char)
  | [] => [[]]
  | c :: cs =>
    if c = ',' then [] :: splitCommas cs
    else
      match splitCommas cs with
      | [] => [[c]]
      | part :: parts => (c :: part) :: parts

/-- The mnemonics and, as aliases, the source's operation names (R65). -/
def mnemonicOf (name : List Char) : Option Opcode :=
  if name = "NEW".toList ∨ name = "new".toList then some .new
  else if name = "RESET".toList ∨ name = "reset".toList then some .reset
  else if name = "ENCHK".toList ∨ name = "enable_check".toList then some .enchk
  else if name = "COMPUTE".toList ∨ name = "compute".toList then some .compute
  else if name = "TRIGMM".toList ∨ name = "trigger_mismatch".toList then some .trigmm
  else if name = "EVENT".toList ∨ name = "event".toList then some .event
  else none

/-- The value of a digit, decimal or hexadecimal in either case. -/
def digitOf (c : Char) : Option Nat :=
  if 48 ≤ c.toNat ∧ c.toNat ≤ 57 then some (c.toNat - 48)
  else if 65 ≤ c.toNat ∧ c.toNat ≤ 70 then some (c.toNat - 55)
  else if 97 ≤ c.toNat ∧ c.toNat ≤ 102 then some (c.toNat - 87)
  else none

/-- The number that digits of the base spell, continuing from `acc`. -/
def digitsFrom (base acc : Nat) : List Char → Option Nat
  | [] => some acc
  | c :: cs =>
    match digitOf c with
    | none => none
    | some v => if v < base then digitsFrom base (acc * base + v) cs else none

/-- At least one digit. -/
def digitsOf (base : Nat) (cs : List Char) : Option Nat :=
  match cs with
  | [] => none
  | c :: rest => digitsFrom base 0 (c :: rest)

/-- A number, decimal or `0x` hexadecimal (R65). -/
def numberOf (cs : List Char) : Option Nat :=
  match cs with
  | '0' :: 'x' :: ds => digitsOf 16 ds
  | ds => digitsOf 10 ds

/-- The operands of a line as numbers. -/
def numbersOf (args : List Char) : Option (List Nat) :=
  (splitCommas args).mapM fun part => numberOf (trimBlanks part)

/-- A width operand, 8, 16 or 32 (R65). -/
def widthOperand : Nat → Option Width
  | 8 => some .w8
  | 16 => some .w16
  | 32 => some .w32
  | _ => none

/-- A boolean operand, 0 or 1 (R65). -/
def boolOperand : Nat → Option Bool
  | 0 => some false
  | 1 => some true
  | _ => none

/-- The bytes of an ASCII text as given, with no terminator (R66). -/
def asciiBytes (cs : List Char) : Option (List Byte) :=
  cs.mapM fun c => if c.toNat < 128 ∧ c ≠ '"' then some (BitVec.ofNat 8 c.toNat) else none

/-- A byte value of a bracketed list (R65). -/
def byteOperand (part : List Char) : Option Byte :=
  match numberOf (trimBlanks part) with
  | some v => if v < 256 then some (BitVec.ofNat 8 v) else none
  | none => none

/-- A bracketed list of byte values, which may be empty (R65). -/
def bytesOperand (inside : List Char) : Option (List Byte) :=
  if trimBlanks inside = [] then some [] else (splitCommas inside).mapM byteOperand

/-- A data operand: a double-quoted ASCII string or a bracketed list of byte values (R65). -/
def dataOperand (args : List Char) : Option (List Byte) :=
  match args, args.getLast? with
  | '"' :: c :: rest, some '"' => asciiBytes (c :: rest).dropLast
  | '[' :: rest, some ']' => bytesOperand rest.dropLast
  | _, _ => none

/-- The kind EVENT's operand names (R65). -/
def kindOperand (args : List Char) : Option EventKind :=
  if args = "MISMATCH".toList then some .mismatch
  else if args = "LENERR".toList then some .lengthError
  else none

/-- NEW w, ri, ro, xo, seed (R65). -/
def assembleNew (args : List Char) : Option Instr :=
  match numbersOf args with
  | some [w, ri, ro, xo, seed] =>
    match widthOperand w, boolOperand ri, boolOperand ro, boolOperand xo with
    | some w, some ri, some ro, some xo => some (.new w ri ro xo seed)
    | _, _, _, _ => none
  | _ => none

/-- RESET seed (R65). -/
def assembleReset (args : List Char) : Option Instr :=
  match numbersOf args with
  | some [seed] => some (.reset seed)
  | _ => none

/-- ENCHK expected_check, expected_length (R65). -/
def assembleEnchk (args : List Char) : Option Instr :=
  match numbersOf args with
  | some [ec, el] => some (.enchk ec el)
  | _ => none

/-- The command a line spells, if it spells one (R65). -/
def assembleLine (line : List Char) : Option Instr :=
  let body := trimBlanks line
  let args := trimBlanks (body.dropWhile fun c => !isBlank c)
  match mnemonicOf (body.takeWhile fun c => !isBlank c) with
  | none => none
  | some .new => assembleNew args
  | some .reset => assembleReset args
  | some .enchk => assembleEnchk args
  | some .compute => (dataOperand args).map Instr.compute
  | some .trigmm => if args = [] then some .trigmm else none
  | some .event => (kindOperand args).map Instr.event

/-- The words of a program, one line per command (R50, R65). DESIGN CHOICE: a line whose number does not fit its
operand word (a seed, expected_check or expected_length of 2^32 or more) spells no words, and the program has none
(safe; log entry 18). -/
def assembleProgram (lines : List (List Char)) : Option (List Word) :=
  (lines.mapM assembleLine).bind fun is => if is.all Instr.wf then some (is.flatMap encode) else none

end Sys2Proof.Machine
end

