-- ==== Sys2Proof/Safety.lean ====
section
/-! DEFINITION. The terms in which claims are stated: the invariants of a channel, a slot and the block, the
check states of a slot, how a slot's run ends, and the polynomial a word stands for. No step uses them. -/

namespace Sys2Proof.Machine

/-- The selected slot exists and takes commands: its mark is clear (R96). -/
def Ready (s : State) (sl : Slot) : Prop := selected s = some sl ∧ sl.mark = none

/-- The selected slot takes commands and holds a channel (R87). -/
def ReadyChannel (s : State) (sl : Slot) (ch : Channel) : Prop := Ready s sl ∧ sl.channel = some ch

/-- Every value of the channel lies in `0 .. 2^w - 1` (R8). -/
abbrev InRange (ch : Channel) : Prop :=
  ch.seed.toNat < 2 ^ bits ch.w ∧ ch.reg.toNat < 2 ^ bits ch.w ∧ ch.expectedCheck.toNat < 2 ^ bits ch.w

/-- A channel in Idle holds the expected values NEW gave it (R25), and no length error, which only a COMPUTE in
check mode sets (R27). -/
abbrev IdleClean (ch : Channel) : Prop :=
  ch.checkEnabled = false → ch.expectedCheck = 0#32 ∧ ch.expectedLength = 0 ∧ ch.lengthErrorFlag = false

/-- What holds of every slot of a run: its channel's values are in range (R8) and clean in Idle (R25, R27); an
Absent slot has accepted nothing, since it accepts only NEW (R87); each accepted command gave exactly one
response (R49); a mark holds the position of the command it refused (R95), after which none is accepted (R96). -/
abbrev SlotInv (sl : Slot) : Prop :=
  (∀ ch ∈ sl.channel, InRange ch ∧ IdleClean ch) ∧
  (sl.channel = none → sl.position = 0) ∧
  sl.responses.length = sl.position ∧
  (∀ m ∈ sl.mark, m.position = sl.position)

/-- The block's invariant: every turn names a slot it has (R15), and every slot meets its own invariant. -/
abbrev BlockInv (s : State) : Prop :=
  s.sel < s.slots.length ∧ (∀ k ∈ s.schedule, k < s.slots.length) ∧ (∀ sl ∈ s.slots, SlotInv sl)

/-- The states of the check-state machine (R28). -/
inductive CheckState where
  | absent
  | idle
  | configured
deriving DecidableEq, Repr

/-- The check state of a slot, fixed by its presence and `check_enabled` (R28). -/
def checkState (sl : Slot) : CheckState :=
  match sl.channel with
  | none => .absent
  | some ch => if ch.checkEnabled then .configured else .idle

/-- The slot's run is at its normal end: its stream ends at a command boundary and no mark is set (R116). -/
def NormalEnd (sl : Slot) : Prop := sl.stream = [] ∧ sl.mark = none

/-- The slot's run ended at a refusal (R116). -/
def RefusedEnd (sl : Slot) : Prop := ∃ m, sl.mark = some m

/-- The state in which the selected slot is `sl` and nothing else is different. -/
def slotBecomes (s : State) (sl : Slot) : State := { s with slots := s.slots.set s.sel sl }

/-- The state with the turn at slot `k`. -/
def turnTo (k : Nat) (s : State) : State := { s with sel := k }

/-- A word read as a polynomial over GF(2): the coefficient of `x^i` is bit `i` (R78). -/
noncomputable def wordPoly (v : Word) : Polynomial (ZMod 2) :=
  ∑ i ∈ Finset.range 32, if v.getLsbD i then Polynomial.X ^ i else 0

/-- The generator `G(x) = x^w + POLY(w)` (R78). -/
noncomputable def generator (w : Width) : Polynomial (ZMod 2) :=
  Polynomial.X ^ bits w + wordPoly (poly w)

end Sys2Proof.Machine
end

