-- ==== Sys2Proof/Certificates/Slice0/Obligations.lean ====
section
/-! DEFINITION. The statements for the provers, from the spec's numbered rules: reset and parameters, the Engine,
the encoding, the six commands, refusals, whole-machine rules, invariants. OBLIGATIONS.json lists them. -/

open Sys2Proof Sys2Proof.Machine

/-! ### Reset and parameters -/

/-- R109: after a block reset every slot is Absent and every mark is clear, whatever the block held before.
The number of slots of a block that starts is NCH, at least 1 (R9). -/
def Obligations.BlockResetLeavesEverySlotAbsent : Prop :=
  (State.reset.slots.length = Config.nch ∧ 1 ≤ Config.nch ∧
    ∀ sl ∈ State.reset.slots, sl.channel = none ∧ sl.mark = none) ∧
  ∀ s : State, (blockReset s).slots.length = s.slots.length ∧
    ∀ sl ∈ (blockReset s).slots, sl.channel = none ∧ sl.mark = none

/-- R7: the generator polynomials; POLY8 is one of its two admissible values. -/
def Obligations.GeneratorPolynomials : Prop :=
  poly .w32 = 0x04C11DB7#32 ∧ poly .w16 = 0x1021#32 ∧ (poly .w8 = 0x07#32 ∨ poly .w8 = 0x1D#32)

/-! ### The Engine -/

/-- R67: REFLECT moves bit `i` to bit `n-1-i`, and its corner cases and examples. -/
def Obligations.ReflectMovesEveryBit : Prop :=
  (∀ (w : Width) (v : Word), v.toNat < 2 ^ bits w →
    (reflect v (bits w)).toNat < 2 ^ bits w ∧
      ∀ i, i < bits w → (reflect v (bits w)).getLsbD (bits w - 1 - i) = v.getLsbD i) ∧
  (∀ w : Width, reflect 0#32 (bits w) = 0#32 ∧ reflect (mask w) (bits w) = mask w) ∧
  reflect 0x12345678#32 32 = 0x1E6A2C48#32 ∧ reflect 0x1234#32 16 = 0x2C48#32 ∧ reflect 0x12#32 8 = 0x48#32

/-- R68: REFLECT is an involution, commutes with complement, distributes over XOR; so output reflection and
output inversion may be applied in either order. -/
def Obligations.ReflectLaws : Prop :=
  (∀ (w : Width) (v : Word), v.toNat < 2 ^ bits w →
    reflect (reflect v (bits w)) (bits w) = v ∧
    reflect (v ^^^ mask w) (bits w) = reflect v (bits w) ^^^ mask w) ∧
  (∀ (w : Width) (a b : Word), a.toNat < 2 ^ bits w → b.toNat < 2 ^ bits w →
    reflect (a ^^^ b) (bits w) = reflect a (bits w) ^^^ reflect b (bits w)) ∧
  (∀ (w : Width) (r : Word), r.toNat < 2 ^ bits w →
    out w { reflectIn := false, reflectOut := true, invertOut := true } r =
      reflect (r ^^^ mask w) (bits w) &&& mask w)

/-- R69: with `reflect_in` a little-endian unit feeds its bytes in sequence order, each least significant bit
first: bit `i` of byte `j` is divided in place `8*j + i`, counted from the top. Without it the unit enters
unchanged. -/
def Obligations.InputReflectionFeedsBytesInOrder : Prop :=
  (∀ (w : Width) (p : Params) (d : List Byte) (k j i : Nat), p.reflectIn = true → k < unitCount w d →
    j < unitBytes w → i < 8 →
    (inputUnit p w (dataUnit d k w)).getLsbD (bits w - 1 - (8 * j + i)) =
      (d.getD (unitBytes w * k + j) 0#8).getLsbD i) ∧
  (∀ (w : Width) (p : Params) (u : Word), p.reflectIn = false → inputUnit p w u = u)

/-- R70: one division step on naturals below `2^w`: shift, drop the bit shifted out, XOR with POLY(w) if that
bit was 1. -/
def Obligations.DivisionStepShiftsAndSubtracts : Prop :=
  (∀ (w : Width) (r : Word), r.toNat < 2 ^ bits w →
    (divStep w r).toNat =
      if r.toNat.testBit (bits w - 1) then Nat.xor ((2 * r.toNat) % 2 ^ bits w) (poly w).toNat
      else (2 * r.toNat) % 2 ^ bits w) ∧
  (∀ w : Width, divStep w 0#32 = 0#32) ∧
  divStep .w8 0x80#32 = poly .w8 ∧ divStep .w8 0x40#32 = 0x80#32 ∧
  divStep .w32 0x80000000#32 = 0x04C11DB7#32

/-- R78: feeding a unit multiplies by `x^w` modulo the generator `G(x) = x^w + POLY(w)` over GF(2). -/
def Obligations.FeedIsRemainderModuloGenerator : Prop :=
  ∀ (w : Width) (r u : Word), r.toNat < 2 ^ bits w → u.toNat < 2 ^ bits w →
    wordPoly (feed w r u) = (wordPoly (r ^^^ u) * Polynomial.X ^ bits w) %ₘ generator w

/-- R78: FEED is linear over XOR, and feeding 0 into 0 gives 0. -/
def Obligations.FeedIsLinearOverXor : Prop :=
  (∀ (w : Width) (r1 r2 u1 u2 : Word), r1.toNat < 2 ^ bits w → r2.toNat < 2 ^ bits w →
    u1.toNat < 2 ^ bits w → u2.toNat < 2 ^ bits w →
    feed w (r1 ^^^ r2) (u1 ^^^ u2) = feed w r1 u1 ^^^ feed w r2 u2) ∧
  (∀ w : Width, feed w 0#32 0#32 = 0#32)

/-- R72: the output transform bit by bit: reflected if `reflect_out`, complemented if `invert_out`, masked to
`w` bits; and its examples. -/
def Obligations.OutputTransformBitByBit : Prop :=
  (∀ (w : Width) (p : Params) (r : Word) (i : Nat), r.toNat < 2 ^ bits w → i < bits w →
    (out w p r).getLsbD i =
      Bool.xor (if p.reflectOut then r.getLsbD (bits w - 1 - i) else r.getLsbD i) p.invertOut) ∧
  (∀ (w : Width) (p : Params) (r : Word), (out w p r).toNat < 2 ^ bits w) ∧
  out .w32 { reflectIn := false, reflectOut := true, invertOut := false } 0x209A5692#32 = 0x496A5904#32 ∧
  out .w32 { reflectIn := false, reflectOut := false, invertOut := true } 0x209A5692#32 = 0xDF65A96D#32

/-- R73, R76: the Engine answers a value below `2^w` for every width, parameters, seed below `2^w` and data, and
so does the raw register before the output transform. -/
def Obligations.EngineStaysInRange : Prop :=
  ∀ (w : Width) (p : Params) (seed : Word) (d : List Byte), seed.toNat < 2 ^ bits w →
    (crcRaw w p seed d).toNat < 2 ^ bits w ∧ (crcEngine w p seed d).toNat < 2 ^ bits w

/-- R36, R37: a unit is the little-endian number of its `U(w)` bytes, and the units are the whole ones. -/
def Obligations.UnitsAreLittleEndianNumbers : Prop :=
  (∀ (w : Width) (d : List Byte) (k : Nat), k < unitCount w d →
    (dataUnit d k w).toNat =
      ∑ j ∈ Finset.range (unitBytes w), (d.getD (unitBytes w * k + j) 0#8).toNat * 2 ^ (8 * j)) ∧
  (∀ (w : Width) (d : List Byte),
    unitBytes w * unitCount w d ≤ d.length ∧ d.length < unitBytes w * (unitCount w d + 1))

/-- R38: the bytes of a trailing partial unit change nothing COMPUTE does: not the channel after it, not the
response, not the word count; for `w = 8` there are none. -/
def Obligations.TrailingPartialUnitIgnored : Prop :=
  (∀ (ch : Channel) (d t : List Byte), d.length % unitBytes ch.w = 0 → t.length < unitBytes ch.w →
    computeAnswer (d ++ t) ch = computeAnswer d ch ∧ unitCount ch.w (d ++ t) = unitCount ch.w d) ∧
  (∀ d : List Byte, unitBytes .w8 * unitCount .w8 d = d.length)

/-- R74: with no whole unit the Engine answers the transformed seed; without output options, the seed. -/
def Obligations.EmptyInputTransformsTheSeed : Prop :=
  (∀ (w : Width) (p : Params) (seed : Word) (d : List Byte), d.length < unitBytes w →
    crcEngine w p seed d = out w p seed) ∧
  (∀ (w : Width) (p : Params) (seed : Word) (d : List Byte), d.length < unitBytes w →
    p.reflectOut = false → p.invertOut = false → seed.toNat < 2 ^ bits w → crcEngine w p seed d = seed) ∧
  crcEngine .w16 { reflectIn := false, reflectOut := true, invertOut := true } 0x1234#32 [] = 0xD3B7#32 ∧
  reflect 0x1234#32 16 ^^^ 0xFFFF#32 = 0xD3B7#32

/-- R75: the Engine's result on `d` is its result on `d` cut to whole units; and the examples ("ABCDE",
"ABCD", "ABC"). -/
def Obligations.EngineReadsWholeUnitsOnly : Prop :=
  (∀ (w : Width) (p : Params) (seed : Word) (d : List Byte),
    crcEngine w p seed d = crcEngine w p seed (d.take (unitBytes w * (d.length / unitBytes w)))) ∧
  crcEngine .w32 { reflectIn := false, reflectOut := false, invertOut := false } 0#32
    [0x41#8, 0x42#8, 0x43#8, 0x44#8, 0x45#8] = 0x0857979A#32 ∧
  crcEngine .w32 { reflectIn := false, reflectOut := false, invertOut := false } 0#32
    [0x41#8, 0x42#8, 0x43#8, 0x44#8] = 0x0857979A#32 ∧
  crcEngine .w32 { reflectIn := false, reflectOut := false, invertOut := false } 0x1234#32
    [0x41#8, 0x42#8, 0x43#8] = 0x1234#32

/-- R79: inverting the output complements the result within `w` bits; and the example. -/
def Obligations.InversionComplementsTheResult : Prop :=
  (∀ (w : Width) (ri ro : Bool) (seed : Word) (d : List Byte), seed.toNat < 2 ^ bits w →
    crcEngine w { reflectIn := ri, reflectOut := ro, invertOut := true } seed d =
      crcEngine w { reflectIn := ri, reflectOut := ro, invertOut := false } seed d ^^^ mask w) ∧
  0xDF65A96D#32 = 0x209A5692#32 ^^^ 0xFFFFFFFF#32

/-- R80: the raw register after `a ++ b`, `a` of whole units, is that after `b` from that after `a`; the Engine's
results chain so without output options, and with either option not for every input; and the examples ("XMC MCU: FCE"
and then " CRC example"). -/
def Obligations.WholeUnitsChain : Prop :=
  (∀ (w : Width) (p : Params) (seed : Word) (a b : List Byte), a.length % unitBytes w = 0 →
    crcRaw w p seed (a ++ b) = crcRaw w p (crcRaw w p seed a) b) ∧
  (∀ (w : Width) (p : Params) (seed : Word) (a b : List Byte), a.length % unitBytes w = 0 →
    seed.toNat < 2 ^ bits w → p.reflectOut = false → p.invertOut = false →
    crcEngine w p seed (a ++ b) = crcEngine w p (crcEngine w p seed a) b) ∧
  (∀ (w : Width) (p : Params), (p.reflectOut = true ∨ p.invertOut = true) →
    ∃ (seed : Word) (a b : List Byte), seed.toNat < 2 ^ bits w ∧ a.length % unitBytes w = 0 ∧
      crcEngine w p seed (a ++ b) ≠ crcEngine w p (crcEngine w p seed a) b) ∧
  (let a : List Byte := [0x58#8, 0x4D#8, 0x43#8, 0x20#8, 0x4D#8, 0x43#8, 0x55#8, 0x3A#8, 0x20#8, 0x46#8, 0x43#8, 0x45#8]
   let b : List Byte := [0x20#8, 0x43#8, 0x52#8, 0x43#8, 0x20#8, 0x65#8, 0x78#8, 0x61#8, 0x6D#8, 0x70#8, 0x6C#8, 0x65#8]
   let plain : Params := { reflectIn := false, reflectOut := false, invertOut := false }
   let inverted : Params := { reflectIn := false, reflectOut := false, invertOut := true }
   crcEngine .w32 plain 0#32 a = 0xDBB72DDD#32 ∧ crcEngine .w32 plain 0xDBB72DDD#32 b = 0x209A5692#32 ∧
   crcEngine .w32 plain 0#32 (a ++ b) = 0x209A5692#32 ∧
   crcEngine .w32 inverted 0#32 a = 0x2448D222#32 ∧ crcEngine .w32 inverted 0x2448D222#32 b = 0xD6F9FD4C#32 ∧
   crcEngine .w32 inverted 0#32 (a ++ b) = 0xDF65A96D#32)

/-- W1 (corrected by C1), V5, V6: the text "XMC MCU: FCE CRC example" with width 32, the digits "123456789" with
width 16 and 8, the latter for both admissible values of POLY8. -/
def Obligations.ReferenceChecksums : Prop :=
  crcEngine .w32 { reflectIn := false, reflectOut := false, invertOut := false } 0#32
    [0x58#8, 0x4D#8, 0x43#8, 0x20#8, 0x4D#8, 0x43#8, 0x55#8, 0x3A#8, 0x20#8, 0x46#8, 0x43#8, 0x45#8,
     0x20#8, 0x43#8, 0x52#8, 0x43#8, 0x20#8, 0x65#8, 0x78#8, 0x61#8, 0x6D#8, 0x70#8, 0x6C#8, 0x65#8]
      = 0x209A5692#32 ∧
  crcEngine .w32 { reflectIn := false, reflectOut := false, invertOut := true } 0#32
    [0x58#8, 0x4D#8, 0x43#8, 0x20#8, 0x4D#8, 0x43#8, 0x55#8, 0x3A#8, 0x20#8, 0x46#8, 0x43#8, 0x45#8,
     0x20#8, 0x43#8, 0x52#8, 0x43#8, 0x20#8, 0x65#8, 0x78#8, 0x61#8, 0x6D#8, 0x70#8, 0x6C#8, 0x65#8]
      = 0xDF65A96D#32 ∧
  crcEngine .w16 { reflectIn := true, reflectOut := true, invertOut := true } 0xFFFF#32
    [0x31#8, 0x32#8, 0x33#8, 0x34#8, 0x35#8, 0x36#8, 0x37#8, 0x38#8, 0x39#8] = 0x086A#32 ∧
  ((poly .w8 = 0x07#32 ∧
      crcEngine .w8 { reflectIn := true, reflectOut := false, invertOut := false } 0xFF#32
        [0x31#8, 0x32#8, 0x33#8, 0x34#8, 0x35#8, 0x36#8, 0x37#8, 0x38#8, 0x39#8] = 0x0B#32) ∨
   (poly .w8 = 0x1D#32 ∧
      crcEngine .w8 { reflectIn := true, reflectOut := false, invertOut := false } 0xFF#32
        [0x31#8, 0x32#8, 0x33#8, 0x34#8, 0x35#8, 0x36#8, 0x37#8, 0x38#8, 0x39#8] = 0xE9#32))

/-! ### The encoding -/

/-- R50 to R60: decoding the words of a well-formed command gives it back, with every operand at every value its
operand words admit, and leaves the words after it. -/
def Obligations.DecodeOfEncodeIsTheCommand : Prop :=
  ∀ (i : Instr) (rest : List Word), i.wf = true → decode (encode i ++ rest) = .command i rest

/-- R52 to R60, R63: a command the decoder reads is well-formed, takes exactly its own number of words, and those
words are the ones the encoder gives it; for COMPUTE, whose padding bytes may differ (R58), the header, N, and
the first N bytes of the data words are. -/
def Obligations.DecodedCommandMatchesItsWords : Prop :=
  ∀ (ws rest : List Word) (i : Instr), decode ws = .command i rest →
    i.wf = true ∧ i.words ≤ ws.length ∧ rest = ws.drop i.words ∧
    ((∀ d, i ≠ .compute d) → ws = encode i ++ rest) ∧
    (∀ d, i = .compute d → ∃ data : List Word, data.length = dataWords d.length ∧
      ws = 4#32 :: BitVec.ofNat 32 d.length :: (data ++ rest) ∧ d = (bytesOfWords data).take d.length)

/-- R57, R58: COMPUTE's data byte `i` is bits `[8*(i mod 4)+7 : 8*(i mod 4)]` of data word `floor(i/4)`, for
every `i` below N and whatever the other bytes of the last word hold. -/
def Obligations.ComputeDataBytes : Prop :=
  ∀ (n : Word) (data rest : List Word), data.length = dataWords n.toNat →
    ∃ d : List Byte, decode (4#32 :: n :: (data ++ rest)) = .command (.compute d) rest ∧ d.length = n.toNat ∧
      ∀ i, i < n.toNat → d[i]? = some ((data.getD (i / 4) 0#32).extractLsb' (8 * (i % 4)) 8)

/-- R61: exactly the headers with the ten reserved opcodes are refused RESERVED_OPCODE. -/
def Obligations.ReservedOpcodesRefused : Prop :=
  ∀ (h : Word) (ops : List Word),
    decode (h :: ops) = .reject .reservedOpcode ↔
      (h.extractLsb' 0 4 = 0#4 ∨ 7 ≤ (h.extractLsb' 0 4).toNat)

/-- R62: a valid opcode with a reserved bit set is refused RESERVED_BITS; a NEW header with width code 3 and no
reserved bit set is refused RESERVED_WIDTH; whatever follows the header. Operand words have no reserved bits: every
value of them is taken (COMPUTE's are in ComputeDataBytes). -/
def Obligations.ReservedBitsAndWidthRefused : Prop :=
  (∀ (h : Word) (ops : List Word), h.extractLsb' 0 4 = 1#4 → h.extractLsb' 9 23 ≠ 0#23 →
    decode (h :: ops) = .reject .reservedBits) ∧
  (∀ (h : Word) (ops : List Word), 2 ≤ (h.extractLsb' 0 4).toNat → (h.extractLsb' 0 4).toNat ≤ 5 →
    h.extractLsb' 4 28 ≠ 0#28 → decode (h :: ops) = .reject .reservedBits) ∧
  (∀ (h : Word) (ops : List Word), h.extractLsb' 0 4 = 6#4 → h.extractLsb' 5 27 ≠ 0#27 →
    decode (h :: ops) = .reject .reservedBits) ∧
  (∀ (h : Word) (ops : List Word), h.extractLsb' 0 4 = 1#4 → h.extractLsb' 9 23 = 0#23 →
    h.extractLsb' 4 2 = 3#2 → decode (h :: ops) = .reject .reservedWidth) ∧
  (∀ (h seed : Word) (rest : List Word), h.extractLsb' 0 4 = 1#4 → h.extractLsb' 9 23 = 0#23 →
    h.extractLsb' 4 2 ≠ 3#2 →
    ∃ w ri ro xo, decode (h :: seed :: rest) = .command (.new w ri ro xo seed.toNat) rest) ∧
  (∀ (seed : Word) (rest : List Word), decode (2#32 :: seed :: rest) = .command (.reset seed.toNat) rest) ∧
  (∀ (ec el : Word) (rest : List Word),
    decode (3#32 :: ec :: el :: rest) = .command (.enchk ec.toNat el.toNat) rest)

/-- R64: a stream that ends before the last word of a command is refused TRUNCATED. Of a stream that ends at a
command boundary the rule says that the run ends; that the slot's turn then is an idle step, in which no slot
changes, is the model's choice (log entry 3). -/
def Obligations.TruncatedStreamsRefused : Prop :=
  (∀ (i : Instr) (n : Nat), i.wf = true → 0 < n → n < i.words →
    decode ((encode i).take n) = .reject .truncated) ∧
  (∀ (s : State) (sl : Slot), Ready s sl → sl.stream = [] →
    ∃ t, step s = .next t ∧ t.slots = s.slots)

/-- R63, R48: words the host sends after a complete command do not change it. -/
def Obligations.LaterWordsDoNotChangeACommand : Prop :=
  ∀ (ws rest more : List Word) (i : Instr), decode ws = .command i rest →
    decode (ws ++ more) = .command i (rest ++ more)

/-- V8: words written out from the formats decode to the commands they stand for. -/
def Obligations.WordsOfTheFormatsDecode : Prop :=
  decode [0x000001E1#32, 0xFFFFFFFF#32] = .command (.new .w32 true true true 0xFFFFFFFF) [] ∧
  decode [0x00000051#32, 0x0000FFFF#32] = .command (.new .w16 true false false 0xFFFF) [] ∧
  decode [0x00000002#32, 0xDBB72DDD#32] = .command (.reset 0xDBB72DDD) [] ∧
  decode [0x00000003#32, 0x209A5692#32, 6#32] = .command (.enchk 0x209A5692 6) [] ∧
  decode [0x00000004#32, 3#32, 0xFF434241#32] = .command (.compute [0x41#8, 0x42#8, 0x43#8]) [] ∧
  decode [0x00000005#32] = .command .trigmm [] ∧
  decode [0x00000016#32] = .command (.event .lengthError) [] ∧
  decode [0x00000231#32, 0#32] = .reject .reservedBits

/-- R50: a command is a header word and its operand words; a stream carried as bytes, bits 7:0 of each word first, is the same words again. -/
def Obligations.WordsSurviveTheByteStream : Prop :=
  (∀ i : Instr, ∃ h ops, encode i = h :: ops) ∧
  (∀ ws : List Word, wordsOfBytes (bytesOfWords ws) = ws) ∧
  (∀ (ws : List Word) (k j : Nat), k < ws.length → j < 4 →
    (bytesOfWords ws)[4 * k + j]? = some ((ws.getD k 0#32).extractLsb' (8 * j) 8))

/-- R65: lines of assembler syntax assemble to the commands they spell, the source's names as aliases. -/
def Obligations.AssemblerLinesSpellCommands : Prop :=
  assembleLine "NEW 32, 0, 1, 0, 0x12".toList = some (.new .w32 false true false 0x12) ∧
  assembleLine "reset 7".toList = some (.reset 7) ∧
  assembleLine "enable_check 0x209A5692, 6".toList = some (.enchk 0x209A5692 6) ∧
  assembleLine "COMPUTE [1, 0x10, 255]".toList = some (.compute [1#8, 16#8, 255#8]) ∧
  assembleLine "TRIGMM".toList = some .trigmm ∧
  assembleLine "EVENT LENERR".toList = some (.event .lengthError)

/-- R66: a COMPUTE with a string operand assembles to the bytes of the string as given, with no terminator. -/
def Obligations.StringOperandHasNoTerminator : Prop :=
  ∀ text : List Char, (∀ c ∈ text, c.toNat < 128 ∧ c ≠ '"') →
    assembleLine ("COMPUTE \"".toList ++ text ++ ['"']) =
      some (.compute (text.map fun c => BitVec.ofNat 8 c.toNat))

/-! ### The six commands -/

/-- R81: the words of NEW, and its effect.
NEW on a slot that takes commands, Absent or Present: with `seed < 2^w` it builds the whole channel and
acknowledges; with a larger seed it is refused SEED_RANGE, which changes the mark alone. -/
def Obligations.NewBuildsTheChannel : Prop :=
  (∀ (w : Width) (ri ro xo : Bool) (seed : Nat), encode (.new w ri ro xo seed) =
    [BitVec.ofNat 32 (1 + 16 * (match w with | .w8 => 0 | .w16 => 1 | .w32 => 2) + 64 * ri.toNat + 128 * ro.toNat +
      256 * xo.toNat), BitVec.ofNat 32 seed]) ∧
  (∀ (s : State) (sl : Slot) (w : Width) (ri ro xo : Bool) (seed : Nat), Ready s sl → seed < 2 ^ bits w →
    exec (.new w ri ro xo seed) s = .next (slotBecomes s
      { channel := some
          { w := w
            params := { reflectIn := ri, reflectOut := ro, invertOut := xo }
            seed := BitVec.ofNat 32 seed
            reg := BitVec.ofNat 32 seed
            checkEnabled := false
            expectedCheck := 0#32
            expectedLength := 0
            mismatchFlag := false
            lengthErrorFlag := false }
        mark := none
        stream := sl.stream.drop 2
        position := sl.position + 1
        responses := sl.responses ++ [.ack] }) ∧
    (BitVec.ofNat 32 seed).toNat = seed) ∧
  (∀ (s : State) (sl : Slot) (w : Width) (ri ro xo : Bool) (seed : Nat), Ready s sl → 2 ^ bits w ≤ seed →
    exec (.new w ri ro xo seed) s = .next (slotBecomes s
      { sl with mark := some { reason := .seedRange, position := sl.position } }))

/-- R82: the words of RESET, and its effect.
RESET on a present channel writes the register and nothing else of the channel; a seed of `2^w` or more
is refused SEED_RANGE; an Absent slot refuses NO_CHANNEL. -/
def Obligations.ResetWritesTheRegisterAlone : Prop :=
  (∀ seed : Nat, encode (.reset seed) = [2#32, BitVec.ofNat 32 seed]) ∧
  (∀ (s : State) (sl : Slot) (ch : Channel) (seed : Nat), ReadyChannel s sl ch → seed < 2 ^ bits ch.w →
    exec (.reset seed) s = .next (slotBecomes s
      { sl with
        channel := some { ch with reg := BitVec.ofNat 32 seed }
        stream := sl.stream.drop 2
        position := sl.position + 1
        responses := sl.responses ++ [.ack] }) ∧
    (BitVec.ofNat 32 seed).toNat = seed) ∧
  (∀ (s : State) (sl : Slot) (ch : Channel) (seed : Nat), ReadyChannel s sl ch → 2 ^ bits ch.w ≤ seed →
    exec (.reset seed) s = .next (slotBecomes s
      { sl with mark := some { reason := .seedRange, position := sl.position } })) ∧
  (∀ (s : State) (sl : Slot) (seed : Nat), Ready s sl → sl.channel = none →
    exec (.reset seed) s = .next (slotBecomes s
      { sl with mark := some { reason := .noChannel, position := sl.position } }))

/-- R83: the words of ENCHK, and its effect.
ENCHK on a present channel, in either check state, turns check mode on and writes both expected values,
the length with no bound; an expected check of `2^w` or more is refused CHECK_RANGE; an Absent slot refuses
NO_CHANNEL. -/
def Obligations.EnchkArmsTheCheck : Prop :=
  (∀ ec el : Nat, encode (.enchk ec el) = [3#32, BitVec.ofNat 32 ec, BitVec.ofNat 32 el]) ∧
  (∀ (s : State) (sl : Slot) (ch : Channel) (ec el : Nat), ReadyChannel s sl ch → ec < 2 ^ bits ch.w →
    exec (.enchk ec el) s = .next (slotBecomes s
      { sl with
        channel := some
          { ch with checkEnabled := true, expectedCheck := BitVec.ofNat 32 ec, expectedLength := el }
        stream := sl.stream.drop 3
        position := sl.position + 1
        responses := sl.responses ++ [.ack] }) ∧
    (BitVec.ofNat 32 ec).toNat = ec) ∧
  (∀ (s : State) (sl : Slot) (ch : Channel) (ec el : Nat), ReadyChannel s sl ch → 2 ^ bits ch.w ≤ ec →
    exec (.enchk ec el) s = .next (slotBecomes s
      { sl with mark := some { reason := .checkRange, position := sl.position } })) ∧
  (∀ (s : State) (sl : Slot) (ec el : Nat), Ready s sl → sl.channel = none →
    exec (.enchk ec el) s = .next (slotBecomes s
      { sl with mark := some { reason := .noChannel, position := sl.position } }))

/-- R84, R89: the words of COMPUTE, and its effect.
COMPUTE on a present channel: the register becomes the Engine's result from the current register;
each flag is set exactly when check mode is on and its comparison fails; the response carries the checksum twice
and the two flags; an Absent slot refuses NO_CHANNEL. -/
def Obligations.ComputeChecksItsResult : Prop :=
  (∀ d : List Byte, (encode (.compute d)).length = 2 + (d.length + 3) / 4 ∧
    (encode (.compute d)).take 2 = [4#32, BitVec.ofNat 32 d.length]) ∧
  (∀ (s : State) (sl : Slot) (ch : Channel) (d : List Byte), ReadyChannel s sl ch →
    exec (.compute d) s = .next (slotBecomes s
      { sl with
        channel := some
          { ch with
            reg := crcEngine ch.w ch.params ch.reg d
            mismatchFlag := ch.checkEnabled && crcEngine ch.w ch.params ch.reg d != ch.expectedCheck
            lengthErrorFlag := ch.checkEnabled && d.length / unitBytes ch.w != ch.expectedLength }
        stream := sl.stream.drop (2 + (d.length + 3) / 4)
        position := sl.position + 1
        responses := sl.responses ++
          [.computed (crcEngine ch.w ch.params ch.reg d) (crcEngine ch.w ch.params ch.reg d)
            (ch.checkEnabled && crcEngine ch.w ch.params ch.reg d != ch.expectedCheck)
            (ch.checkEnabled && d.length / unitBytes ch.w != ch.expectedLength)] })) ∧
  (∀ (s : State) (sl : Slot) (d : List Byte), Ready s sl → sl.channel = none →
    exec (.compute d) s = .next (slotBecomes s
      { sl with mark := some { reason := .noChannel, position := sl.position } }))

/-- R85: the words of TRIGMM, and its effect.
TRIGMM on a present channel sets the mismatch flag and nothing else of the channel, in either check
state; an Absent slot refuses NO_CHANNEL. -/
def Obligations.TrigmmForcesTheMismatchFlag : Prop :=
  encode .trigmm = [5#32] ∧
  (∀ (s : State) (sl : Slot) (ch : Channel), ReadyChannel s sl ch →
    exec .trigmm s = .next (slotBecomes s
      { sl with
        channel := some { ch with mismatchFlag := true }
        stream := sl.stream.drop 1
        position := sl.position + 1
        responses := sl.responses ++ [.ack] })) ∧
  (∀ (s : State) (sl : Slot), Ready s sl → sl.channel = none →
    exec .trigmm s = .next (slotBecomes s
      { sl with mark := some { reason := .noChannel, position := sl.position } }))

/-- R86: the words of EVENT, and its effect.
EVENT on a present channel answers the current flag of the named kind and changes nothing of the
channel, so that a second EVENT of the same kind answers the same; an Absent slot refuses NO_CHANNEL. -/
def Obligations.EventReadsWithoutClearing : Prop :=
  encode (.event .mismatch) = [6#32] ∧ encode (.event .lengthError) = [0x16#32] ∧
  (∀ (s : State) (sl : Slot) (ch : Channel) (k : EventKind), ReadyChannel s sl ch →
    exec (.event k) s = .next (slotBecomes s
      { sl with
        stream := sl.stream.drop 1
        position := sl.position + 1
        responses := sl.responses ++
          [.flag (match k with | .mismatch => ch.mismatchFlag | .lengthError => ch.lengthErrorFlag)] })) ∧
  (∀ (s : State) (sl : Slot) (ch : Channel) (k : EventKind), ReadyChannel s sl ch →
    ∃ (t u : State) (b : Bool), exec (.event k) s = .next t ∧ exec (.event k) t = .next u ∧
      (selected u).map Slot.responses = some (sl.responses ++ [.flag b, .flag b])) ∧
  (∀ (s : State) (sl : Slot) (k : EventKind), Ready s sl → sl.channel = none →
    exec (.event k) s = .next (slotBecomes s
      { sl with mark := some { reason := .noChannel, position := sl.position } }))

/-- R87: a present slot accepts all six commands in either check state, an Absent slot only NEW, refusing the
other five NO_CHANNEL. A command is accepted when the slot's position advances and its mark stays clear; the
operands of NEW, RESET and ENCHK are taken in their ranges, since out of range they are refused in either case. -/
def Obligations.WhichCommandsASlotAccepts : Prop :=
  (∀ (s : State) (sl : Slot) (ch : Channel) (i : Instr), ReadyChannel s sl ch →
    (∀ w ri ro xo seed, i = .new w ri ro xo seed → seed < 2 ^ bits w) →
    (∀ seed, i = .reset seed → seed < 2 ^ bits ch.w) →
    (∀ ec el, i = .enchk ec el → ec < 2 ^ bits ch.w) →
    ∃ t tl, exec i s = .next t ∧ selected t = some tl ∧ tl.mark = none ∧ tl.position = sl.position + 1) ∧
  (∀ (s : State) (sl : Slot) (w : Width) (ri ro xo : Bool) (seed : Nat), Ready s sl → sl.channel = none →
    seed < 2 ^ bits w →
    ∃ t tl, exec (.new w ri ro xo seed) s = .next t ∧ selected t = some tl ∧ tl.mark = none ∧
      tl.position = sl.position + 1) ∧
  (∀ (s : State) (sl : Slot) (i : Instr), Ready s sl → sl.channel = none →
    (∀ w ri ro xo seed, i ≠ .new w ri ro xo seed) →
    ∃ t, exec i s = .next t ∧
      selected t = some { sl with mark := some { reason := .noChannel, position := sl.position } })

/-- R88: after a second COMPUTE the flags are those of its own data alone, whatever the first left: nothing is
accumulated, and the word count is that of the second call's data. -/
def Obligations.FlagsAreOfTheLastCompute : Prop :=
  ∀ (s : State) (sl : Slot) (ch : Channel) (a b : List Byte), ReadyChannel s sl ch →
    ∃ t u ul uch, exec (.compute a) s = .next t ∧ exec (.compute b) t = .next u ∧
      selected u = some ul ∧ ul.channel = some uch ∧
      uch.lengthErrorFlag = (ch.checkEnabled && b.length / unitBytes ch.w != ch.expectedLength) ∧
      uch.mismatchFlag = (ch.checkEnabled &&
        crcEngine ch.w ch.params (crcEngine ch.w ch.params ch.reg a) b != ch.expectedCheck)

/-- R90: of one COMPUTE in check mode the mismatch and the length error are independent: for every width and
parameters and every pair of truth values there is a channel whose COMPUTE sets the flags so. -/
def Obligations.MismatchAndLengthErrorIndependent : Prop :=
  ∀ (w : Width) (p : Params) (reg : Word) (d : List Byte) (mm le : Bool), reg.toNat < 2 ^ bits w →
    ∃ ch : Channel, ch.w = w ∧ ch.params = p ∧ ch.reg = reg ∧ ch.checkEnabled = true ∧ InRange ch ∧
      (computedChannel d ch).mismatchFlag = mm ∧ (computedChannel d ch).lengthErrorFlag = le

/-- R91: in check mode, with data shorter than one unit, the length error is set unless the expected length is 0
and the mismatch unless the transformed register is the expected check. -/
def Obligations.EmptyDataInCheckMode : Prop :=
  ∀ (s : State) (sl : Slot) (ch : Channel) (d : List Byte), ReadyChannel s sl ch → ch.checkEnabled = true →
    d.length < unitBytes ch.w →
    ∃ t tl tch, exec (.compute d) s = .next t ∧ selected t = some tl ∧ tl.channel = some tch ∧
      tch.reg = out ch.w ch.params ch.reg ∧
      (tch.lengthErrorFlag = false ↔ ch.expectedLength = 0) ∧
      (tch.mismatchFlag = false ↔ out ch.w ch.params ch.reg = ch.expectedCheck)

/-! ### Steps and refusals -/

/-- When the stream of a slot that takes commands decodes to `i`, the step is `exec` of `i`, and then the turn
passes to the next slot of the schedule (or stays, with none left); with no such slot it is the fault. -/
def Obligations.StepRunsTheDecodedCommand : Prop :=
  (∀ (s : State) (sl : Slot) (i : Instr) (rest : List Word), Ready s sl → sl.stream ≠ [] →
    decode sl.stream = .command i rest →
    step s = match exec i s with
      | .next t => .next { t with sel := t.schedule.headD t.sel, schedule := t.schedule.tail }
      | .fault f => .fault f
      | .refused r => .refused r) ∧
  (∀ s : State, selected s = none → step s = .fault .noSuchSlot)

/-- R96 for the decoder's refusals: the slot's mark is set to the reason and the position, no other field of any
slot changes, and the turn passes. The words there at the turn are taken as the whole stream (log entry 20). -/
def Obligations.DecoderRefusalMarksTheSlot : Prop :=
  ∀ (s : State) (sl : Slot) (r : Reason), Ready s sl → sl.stream ≠ [] → decode sl.stream = .reject r →
    ∃ t, step s = .next t ∧ t.slots = s.slots.set s.sel { sl with mark := some { reason := r, position := sl.position } }

/-- R96: a marked slot never changes again, whatever command is run and whatever step is taken. -/
def Obligations.MarkedSlotNeverChanges : Prop :=
  (∀ (i : Instr) (s t : State) (k : Nat) (sl : Slot) (m : Mark), s.slots[k]? = some sl → sl.mark = some m →
    exec i s = .next t → t.slots[k]? = some sl) ∧
  (∀ (s t : State) (k : Nat) (sl : Slot) (m : Mark), s.slots[k]? = some sl → sl.mark = some m →
    step s = .next t → t.slots[k]? = some sl)

/-- R95: the codes of the seven reasons, and the order in which they are reported: a reserved bit before width
code 3, width code 3 before a truncated stream, NO_CHANNEL before an operand out of range. -/
def Obligations.RefusalCodesAndOrder : Prop :=
  [Reason.reservedOpcode, .reservedBits, .reservedWidth, .truncated, .noChannel, .seedRange, .checkRange].map
    reasonCode = [1, 2, 3, 4, 5, 6, 7] ∧
  decode [0x00000037#32] = .reject .reservedOpcode ∧ decode [0x00000231#32] = .reject .reservedBits ∧
  decode [0x00000031#32] = .reject .reservedWidth ∧ decode [0x00000021#32] = .reject .truncated ∧
  (∀ (s : State) (sl : Slot), Ready s sl → sl.channel = none →
    exec (.reset (2 ^ 32)) s = .next (slotBecomes s
      { sl with mark := some { reason := .noChannel, position := sl.position } }) ∧
    exec (.enchk (2 ^ 32) 0) s = .next (slotBecomes s
      { sl with mark := some { reason := .noChannel, position := sl.position } }))

/-- R116: a slot at its normal end, or ended at a refusal, is not changed by any step. -/
def Obligations.EndedSlotsStayAsTheyAre : Prop :=
  ∀ (s t : State) (k : Nat) (sl : Slot), s.slots[k]? = some sl → (NormalEnd sl ∨ RefusedEnd sl) →
    step s = .next t → t.slots[k]? = some sl

/-- R118: the run of a slot's stream is finite: with the turn kept at the slot, after as many steps as the stream
has words the slot is at its normal end or at a refusal. The turns are the model's (log entry 3), and so is taking
the words there as the whole stream (log entry 20). -/
def Obligations.RunEndsWithinItsStream : Prop :=
  ∀ (s : State) (sl : Slot), selected s = some sl → s.schedule = [] →
    ∃ t tl, Host.Core.run Sys2Proof.core sl.stream.length s = .next t ∧ selected t = some tl ∧
      (NormalEnd tl ∨ RefusedEnd tl)

/-- R49, R96: a command to a slot that takes commands is either accepted, with exactly one response and the
position advanced by one, or refused, with no response and nothing but the mark changed. -/
def Obligations.OneResponsePerAcceptedCommand : Prop :=
  ∀ (i : Instr) (s : State) (sl : Slot), Ready s sl →
    ∃ t tl, exec i s = .next t ∧ selected t = some tl ∧
      ((tl.mark = none ∧ tl.position = sl.position + 1 ∧ (∃ r, tl.responses = sl.responses ++ [r]) ∧
          tl.stream = sl.stream.drop i.words ∧ tl.channel ≠ none) ∨
       (∃ r, tl = { sl with mark := some { reason := r, position := sl.position } }))

/-- R93, R99, R118: no command and no step faults or is refused by the model while the turn names a slot the
block has: each answers a next state. -/
def Obligations.EveryStepAnswersANextState : Prop :=
  ∀ s : State, s.sel < s.slots.length →
    (∃ t, step s = .next t ∧ t.slots.length = s.slots.length) ∧ ∀ i, ∃ t, exec i s = .next t

/-! ### Whole-machine rules -/

/-- R31: what each command may write. Slots other than the selected one, the turn and the number of slots never
change; of the selected slot's channel each command writes only the fields of its column. -/
def Obligations.CommandsWriteOnlyTheirFields : Prop :=
  ∀ (i : Instr) (s t : State), exec i s = .next t →
    t.sel = s.sel ∧ t.schedule = s.schedule ∧ t.slots.length = s.slots.length ∧
    (∀ k, k ≠ s.sel → t.slots[k]? = s.slots[k]?) ∧
    ∀ (sl tl : Slot), selected s = some sl → selected t = some tl →
      (sl.channel = none → (∃ w ri ro xo seed, i = .new w ri ro xo seed) ∨ tl.channel = none) ∧
      ∀ ch, sl.channel = some ch → ∃ tch, tl.channel = some tch ∧
        match i with
        | .new _ _ _ _ _ => True
        | .reset _ => tch = { ch with reg := tch.reg }
        | .enchk _ _ => tch =
            { ch with
              checkEnabled := tch.checkEnabled
              expectedCheck := tch.expectedCheck
              expectedLength := tch.expectedLength }
        | .compute _ => tch =
            { ch with reg := tch.reg, mismatchFlag := tch.mismatchFlag, lengthErrorFlag := tch.lengthErrorFlag }
        | .trigmm => tch = { ch with mismatchFlag := tch.mismatchFlag }
        | .event _ => tch = ch

/-- R28: the check-state machine: the state of the selected slot after a command, by the state before it and the
command, where a command that is refused leaves the state as it was. -/
def Obligations.CheckStateTransitions : Prop :=
  ∀ (i : Instr) (s : State) (sl : Slot), Ready s sl →
    ∃ t tl, exec i s = .next t ∧ selected t = some tl ∧
      (tl.mark ≠ none → checkState tl = checkState sl) ∧
      (tl.mark = none → checkState tl =
        match i with
        | .new _ _ _ _ _ => .idle
        | .enchk _ _ => .configured
        | _ => checkState sl) ∧
      (sl.channel = none → (∀ w ri ro xo seed, i ≠ .new w ri ro xo seed) →
        tl.mark ≠ none ∧ checkState tl = .absent)

/-- R92: a command's response and next state are functions of the channel and the command alone: two slots that hold
equal channels, whatever else they and their blocks hold, go to equal channels with equal responses, or are both
refused for the same reason. -/
def Obligations.CommandDependsOnItsChannelAlone : Prop :=
  ∀ (i : Instr) (s1 s2 : State) (sl1 sl2 : Slot), Ready s1 sl1 → Ready s2 sl2 → sl1.channel = sl2.channel →
    ∃ t1 t2 tl1 tl2, exec i s1 = .next t1 ∧ exec i s2 = .next t2 ∧
      selected t1 = some tl1 ∧ selected t2 = some tl2 ∧ tl1.channel = tl2.channel ∧
      (∃ given, tl1.responses = sl1.responses ++ given ∧ tl2.responses = sl2.responses ++ given) ∧
      tl1.mark.map Mark.reason = tl2.mark.map Mark.reason

/-- R44: commands to two different slots commute: either order gives the same slots. -/
def Obligations.CommandsToDifferentSlotsCommute : Prop :=
  ∀ (i j : Instr) (s : State) (a b : Nat), a ≠ b → a < s.slots.length → b < s.slots.length →
    ∃ t1 t2 u1 u2,
      exec i (turnTo a s) = .next t1 ∧ exec j (turnTo b t1) = .next t2 ∧
      exec j (turnTo b s) = .next u1 ∧ exec i (turnTo a u1) = .next u2 ∧
      t2.slots = u2.slots

/-- R44, R113: so do whole steps, decoding and refusals included: taking slot `a`'s turn and then slot `b`'s gives
the same slots as the other way round. The turn, idle where a slot has nothing to execute, is the model's (log
entry 3). -/
def Obligations.StepsOfDifferentSlotsCommute : Prop :=
  ∀ (s : State) (a b : Nat), a ≠ b → a < s.slots.length → b < s.slots.length →
    ∃ t1 t2 u1 u2,
      step { s with sel := a, schedule := [b] } = .next t1 ∧ step t1 = .next t2 ∧
      step { s with sel := b, schedule := [a] } = .next u1 ∧ step u1 = .next u2 ∧
      t2.slots = u2.slots

/-! ### Invariants -/

/-- Every step keeps the invariant: values below `2^w` (R8), Idle channels clean (R25, R27), Absent slots with
nothing accepted (R87), one response per accepted command (R49), marks at the refused position (R95), turns at
slots the block has (R15). -/
def Obligations.StepKeepsTheInvariant : Prop :=
  ∀ s t : State, BlockInv s → step s = .next t → BlockInv t

/-- The invariant holds at reset. -/
def Obligations.ResetMeetsTheInvariant : Prop := BlockInv State.reset

/-- The invariant holds after every run of steps from a state that meets it, and no such run ends in a fault. -/
def Obligations.RunsKeepTheInvariant : Prop :=
  ∀ (n : Nat) (s : State), BlockInv s → ∃ t, Host.Core.run Sys2Proof.core n s = .next t ∧ BlockInv t
end

