-- ==== Sys2Proof/Laws/Decode.lean ====
section
/-! SUPPORT. What the decoder does with a header, said once (30_encoding.md R61 to R63). -/

namespace Sys2Proof

/-- A reserved opcode. -/
theorem decode_of_reserved_opcode {h : Word} (ho : opcodeOf h = none) (ops : List Word) :
    decode (h :: ops) = .reject .reservedOpcode := by
  simp [decode, ho]

/-- A valid opcode with a reserved bit set. -/
theorem decode_of_reserved_bits {h : Word} {op : Opcode} (ho : opcodeOf h = some op)
    (hr : h &&& reservedMask op ≠ 0#32) (ops : List Word) : decode (h :: ops) = .reject .reservedBits := by
  simp [decode, ho, hr]

/-- A valid header goes to its format. -/
theorem decode_of_header {h : Word} {op : Opcode} (ho : opcodeOf h = some op)
    (hr : h &&& reservedMask op = 0#32) (ops : List Word) : decode (h :: ops) = decodeFormat op h ops := by
  simp [decode, ho, hr]

/-- Everything the decoder can do when it reads a command: a valid header whose format reads it. -/
theorem decode_command_cases {ws rest : List Word} {i : Instr} (hd : decode ws = .command i rest) :
    ∃ h ops op, ws = h :: ops ∧ opcodeOf h = some op ∧ h &&& reservedMask op = 0#32 ∧
      decodeFormat op h ops = .command i rest := by
  cases ws with
  | nil => simp [decode] at hd
  | cons h ops =>
    cases ho : opcodeOf h with
    | none => simp [decode, ho] at hd
    | some op =>
      by_cases hr : h &&& reservedMask op = 0#32
      · exact ⟨h, ops, op, rfl, ho, hr, (decode_of_header ho hr ops) ▸ hd⟩
      · simp [decode, ho, hr] at hd

end Sys2Proof
end

