-- ==== Sys2Proof/Laws/Engine.lean ====
section
/-! SUPPORT. The small laws of the Engine's parts, bit by bit, and of the flag computation. -/

namespace Sys2Proof.Machine

theorem bits_pos (w : Width) : 0 < bits w := by cases w <;> simp [bits]

theorem bits_le (w : Width) : bits w ≤ 32 := by cases w <;> simp [bits]

theorem unitBytes_pos (w : Width) : 0 < unitBytes w := by cases w <;> simp [unitBytes]

/-- A unit holds exactly `w` bits (R6). -/
theorem eight_mul_unitBytes (w : Width) : 8 * unitBytes w = bits w := by cases w <;> rfl

/-- A word is below `2^n` when it has no bit at `n` or above. -/
theorem toNat_lt_iff_bits (v : Word) (n : Nat) : v.toNat < 2 ^ n ↔ ∀ i, n ≤ i → v.getLsbD i = false := by
  constructor
  · intro h i hi
    rw [BitVec.getLsbD]
    exact Nat.testBit_lt_two_pow (lt_of_lt_of_le h (Nat.pow_le_pow_right (by norm_num) hi))
  · intro h
    exact Nat.lt_pow_two_of_testBit _ (fun i hi => h i hi)

/-- Bit `i` of MASK(w) (R11). -/
theorem mask_getLsbD (w : Width) (i : Nat) : (mask w).getLsbD i = decide (i < bits w) := by
  have := bits_le w
  simp only [mask, BitVec.getLsbD_ofNat, Nat.testBit_two_pow_sub_one]
  by_cases h : i < bits w <;> simp [h]
  omega

/-- POLY(w) is a `w`-bit value (R7). -/
theorem poly_lt (w : Width) : (poly w).toNat < 2 ^ bits w := by
  cases w
  · simp only [poly, Config.poly8, bits]
    split <;> decide
  · decide
  · decide

/-- Bit `i` of a division step (R70): the bit below it, and the generator's bit if the top bit was 1. -/
theorem divStepBy_getLsbD (g : Word) (w : Width) (r : Word) (i : Nat) :
    (divStepBy g w r).getLsbD i =
      Bool.xor (decide (i < bits w) && decide (0 < i) && r.getLsbD (i - 1))
        (r.getLsbD (bits w - 1) && g.getLsbD i) := by
  have := bits_le w
  unfold divStepBy
  by_cases h : r.getLsbD (bits w - 1) <;> by_cases hi : i < bits w <;> by_cases h0 : i = 0 <;>
    simp [h, hi, h0, mask_getLsbD, BitVec.getLsbD_shiftLeft]
  all_goals
    have h1 : i < 32 := by omega
    have h2 : 0 < i := by omega
    simp [h1, h2]

/-- After the flags are cleared, step 4 sets the mismatch flag exactly when check mode is on and the checksum is
not the expected one (R84). -/
theorem checkResult_mismatchFlag (c : Word) (n : Nat) (ch : Channel) (h : ch.mismatchFlag = false) :
    (checkResult c n ch).mismatchFlag = (ch.checkEnabled && c != ch.expectedCheck) := by
  rcases ch with ⟨_, _, _, _, ce, _, _, _, _⟩
  cases ce <;> simp_all [checkResult, bne]
  grind

/-- The same for the length error flag and the word count (R84). -/
theorem checkResult_lengthErrorFlag (c : Word) (n : Nat) (ch : Channel) (h : ch.lengthErrorFlag = false) :
    (checkResult c n ch).lengthErrorFlag = (ch.checkEnabled && n != ch.expectedLength) := by
  rcases ch with ⟨_, _, _, _, ce, _, _, _, _⟩
  cases ce <;> simp_all [checkResult, bne]
  grind

end Sys2Proof.Machine
end

