-- ==== Sys2Proof/Laws/State.lean ====
section
/-! SUPPORT. One lemma per field per update, so that no proof unfolds a record update. -/

namespace Sys2Proof.Machine

@[simp] theorem acceptAt_channel (n : Nat) (ch : Channel) (r : Response) (sl : Slot) :
    (acceptAt n ch r sl).channel = some ch := rfl
@[simp] theorem acceptAt_mark (n : Nat) (ch : Channel) (r : Response) (sl : Slot) :
    (acceptAt n ch r sl).mark = sl.mark := rfl
@[simp] theorem acceptAt_stream (n : Nat) (ch : Channel) (r : Response) (sl : Slot) :
    (acceptAt n ch r sl).stream = sl.stream.drop n := rfl
@[simp] theorem acceptAt_position (n : Nat) (ch : Channel) (r : Response) (sl : Slot) :
    (acceptAt n ch r sl).position = sl.position + 1 := rfl
@[simp] theorem acceptAt_responses (n : Nat) (ch : Channel) (r : Response) (sl : Slot) :
    (acceptAt n ch r sl).responses = sl.responses ++ [r] := rfl

@[simp] theorem refuseAt_channel (r : Reason) (sl : Slot) : (refuseAt r sl).channel = sl.channel := rfl
@[simp] theorem refuseAt_mark (r : Reason) (sl : Slot) : (refuseAt r sl).mark = some ⟨r, sl.position⟩ := rfl
@[simp] theorem refuseAt_stream (r : Reason) (sl : Slot) : (refuseAt r sl).stream = sl.stream := rfl
@[simp] theorem refuseAt_position (r : Reason) (sl : Slot) : (refuseAt r sl).position = sl.position := rfl
@[simp] theorem refuseAt_responses (r : Reason) (sl : Slot) : (refuseAt r sl).responses = sl.responses := rfl

@[simp] theorem putSlot_slots (sl : Slot) (s : State) : (putSlot sl s).slots = s.slots.set s.sel sl := rfl
@[simp] theorem putSlot_sel (sl : Slot) (s : State) : (putSlot sl s).sel = s.sel := rfl
@[simp] theorem putSlot_schedule (sl : Slot) (s : State) : (putSlot sl s).schedule = s.schedule := rfl

@[simp] theorem endTurn_slots (s : State) : (endTurn s).slots = s.slots := rfl
@[simp] theorem endTurn_sel (s : State) : (endTurn s).sel = s.schedule.headD s.sel := rfl
@[simp] theorem endTurn_schedule (s : State) : (endTurn s).schedule = s.schedule.tail := rfl

@[simp] theorem turnTo_slots (k : Nat) (s : State) : (turnTo k s).slots = s.slots := rfl
@[simp] theorem turnTo_sel (k : Nat) (s : State) : (turnTo k s).sel = k := rfl
@[simp] theorem turnTo_schedule (k : Nat) (s : State) : (turnTo k s).schedule = s.schedule := rfl

@[simp] theorem clearFlags_w (ch : Channel) : (clearFlags ch).w = ch.w := rfl
@[simp] theorem clearFlags_params (ch : Channel) : (clearFlags ch).params = ch.params := rfl
@[simp] theorem clearFlags_seed (ch : Channel) : (clearFlags ch).seed = ch.seed := rfl
@[simp] theorem clearFlags_reg (ch : Channel) : (clearFlags ch).reg = ch.reg := rfl
@[simp] theorem clearFlags_checkEnabled (ch : Channel) : (clearFlags ch).checkEnabled = ch.checkEnabled := rfl
@[simp] theorem clearFlags_expectedCheck (ch : Channel) : (clearFlags ch).expectedCheck = ch.expectedCheck := rfl
@[simp] theorem clearFlags_expectedLength (ch : Channel) : (clearFlags ch).expectedLength = ch.expectedLength := rfl
@[simp] theorem clearFlags_mismatchFlag (ch : Channel) : (clearFlags ch).mismatchFlag = false := rfl
@[simp] theorem clearFlags_lengthErrorFlag (ch : Channel) : (clearFlags ch).lengthErrorFlag = false := rfl

@[simp] theorem checkResult_w (c : Word) (n : Nat) (ch : Channel) : (checkResult c n ch).w = ch.w := by
  unfold checkResult; split <;> rfl
@[simp] theorem checkResult_params (c : Word) (n : Nat) (ch : Channel) :
    (checkResult c n ch).params = ch.params := by
  unfold checkResult; split <;> rfl
@[simp] theorem checkResult_seed (c : Word) (n : Nat) (ch : Channel) : (checkResult c n ch).seed = ch.seed := by
  unfold checkResult; split <;> rfl
@[simp] theorem checkResult_reg (c : Word) (n : Nat) (ch : Channel) : (checkResult c n ch).reg = ch.reg := by
  unfold checkResult; split <;> rfl
@[simp] theorem checkResult_checkEnabled (c : Word) (n : Nat) (ch : Channel) :
    (checkResult c n ch).checkEnabled = ch.checkEnabled := by
  unfold checkResult; split <;> rfl
@[simp] theorem checkResult_expectedCheck (c : Word) (n : Nat) (ch : Channel) :
    (checkResult c n ch).expectedCheck = ch.expectedCheck := by
  unfold checkResult; split <;> rfl
@[simp] theorem checkResult_expectedLength (c : Word) (n : Nat) (ch : Channel) :
    (checkResult c n ch).expectedLength = ch.expectedLength := by
  unfold checkResult; split <;> rfl

@[simp] theorem forceMismatch_mismatchFlag (ch : Channel) : (forceMismatch ch).mismatchFlag = true := rfl
@[simp] theorem forceMismatch_lengthErrorFlag (ch : Channel) :
    (forceMismatch ch).lengthErrorFlag = ch.lengthErrorFlag := rfl
@[simp] theorem forceMismatch_reg (ch : Channel) : (forceMismatch ch).reg = ch.reg := rfl
@[simp] theorem forceMismatch_checkEnabled (ch : Channel) :
    (forceMismatch ch).checkEnabled = ch.checkEnabled := rfl

end Sys2Proof.Machine
end

