-- ==== Sys2Proof/Laws/Ops.lean ====
section
/-! SUPPORT. What each shared operation can do, said once: a command to the selected slot, a fetch, a step. -/

namespace Sys2Proof.Machine

/-- What a command makes of its slot's channel, for every command. -/
def answerOf : Instr → Option Channel → Answer
  | .new w ri ro xo seed => fun _ => newAnswer w ri ro xo seed
  | .reset seed => onPresent (resetAnswer seed)
  | .enchk ec el => onPresent (enchkAnswer ec el)
  | .compute data => onPresent (computeAnswer data)
  | .trigmm => onPresent trigmmAnswer
  | .event k => onPresent (eventAnswer k)

/-- Every command is the shared operation with its own length and answer. -/
theorem exec_eq_command (i : Instr) (s : State) : exec i s = command i.words (answerOf i) s := by
  cases i <;> rfl

theorem selected_eq_some {s : State} {sl : Slot} (h : selected s = some sl) : s.sel < s.slots.length := by
  unfold selected at h
  exact (List.getElem?_eq_some_iff.mp h).1

theorem selected_of_lt {s : State} (h : s.sel < s.slots.length) : ∃ sl, selected s = some sl :=
  ⟨s.slots[s.sel], List.getElem?_eq_getElem h⟩

/-- The slot put is the slot selected. -/
theorem selected_putSlot {s : State} {old : Slot} (h : selected s = some old) (sl : Slot) :
    selected (putSlot sl s) = some sl := by
  have := selected_eq_some h
  simp [selected, this]

/-- Putting the selected slot leaves every other slot alone. -/
theorem putSlot_other (sl : Slot) (s : State) {k : Nat} (h : k ≠ s.sel) :
    (putSlot sl s).slots[k]? = s.slots[k]? := by
  simp [List.getElem?_set_ne (Ne.symm h)]

/-- A command to a slot that takes commands. -/
theorem command_of_ready {s : State} {sl : Slot} (len : Nat) (act : Option Channel → Answer)
    (h : Ready s sl) : command len act s = .next (putSlot (settle len (act sl.channel) sl) s) := by
  simp [command, h.1, h.2]

/-- A command to a marked slot (R96). -/
theorem command_of_marked {s : State} {sl : Slot} {m : Mark} (len : Nat) (act : Option Channel → Answer)
    (h : selected s = some sl) (hm : sl.mark = some m) : command len act s = .next s := by
  simp [command, h, hm]

/-- A command to a slot the block does not have. -/
theorem command_of_noSlot {s : State} (len : Nat) (act : Option Channel → Answer)
    (h : selected s = none) : command len act s = .fault .noSuchSlot := by
  simp [command, h]

/-- Everything a command can do when it answers a next state. -/
theorem command_cases {len : Nat} {act : Option Channel → Answer} {s t : State}
    (h : command len act s = .next t) :
    ∃ sl, selected s = some sl ∧
      ((∃ m, sl.mark = some m ∧ t = s) ∨
        (sl.mark = none ∧ t = putSlot (settle len (act sl.channel) sl) s)) := by
  cases hs : selected s with
  | none => simp [command, hs] at h
  | some sl =>
    refine ⟨sl, rfl, ?_⟩
    cases hm : sl.mark with
    | none => exact .inr ⟨rfl, by simpa [command, hs, hm] using h.symm⟩
    | some m => exact .inl ⟨m, rfl, by simpa [command, hs, hm] using h.symm⟩

/-- Everything one command's outcome can be. -/
theorem exec_cases {i : Instr} {s t : State} (h : exec i s = .next t) :
    ∃ sl, selected s = some sl ∧
      ((∃ m, sl.mark = some m ∧ t = s) ∨
        (sl.mark = none ∧ t = putSlot (settle i.words (answerOf i sl.channel) sl) s)) :=
  command_cases (exec_eq_command i s ▸ h)

/-- Everything a step can do when it answers a next state. -/
theorem step_cases {s t : State} (h : step s = .next t) :
    (fetch s = .quiet ∧ t = endTurn s) ∨
    (∃ r, fetch s = .rejected r ∧ t = endTurn (rejectCommand r s)) ∨
    (∃ i u, fetch s = .command i ∧ exec i s = .next u ∧ t = endTurn u) := by
  unfold step at h
  cases hf : fetch s with
  | noSlot => simp [hf] at h
  | quiet => exact .inl ⟨rfl, by simpa [hf] using h.symm⟩
  | rejected r => exact .inr (.inl ⟨r, rfl, by simpa [hf] using h.symm⟩)
  | command i =>
    refine .inr (.inr ⟨i, ?_⟩)
    cases he : exec i s with
    | next u => exact ⟨u, rfl, rfl, by simpa [hf, he, thenEndTurn] using h.symm⟩
    | fault f => simp [hf, he, thenEndTurn] at h
    | refused r => simp [hf, he, thenEndTurn] at h

/-- A turn that finds a command or a refusal is the turn of a slot whose mark is clear. -/
theorem fetch_command_ready {s : State} {i : Instr} (h : fetch s = .command i) : ∃ sl, Ready s sl := by
  unfold fetch at h
  cases hs : selected s with
  | none => simp [hs] at h
  | some sl =>
    refine ⟨sl, hs, ?_⟩
    cases hm : sl.mark with
    | none => rfl
    | some m => simp [hs, fetchSlot, hm] at h

theorem fetch_rejected_ready {s : State} {r : Reason} (h : fetch s = .rejected r) : ∃ sl, Ready s sl := by
  unfold fetch at h
  cases hs : selected s with
  | none => simp [hs] at h
  | some sl =>
    refine ⟨sl, hs, ?_⟩
    cases hm : sl.mark with
    | none => rfl
    | some m => simp [hs, fetchSlot, hm] at h

/-- A refusal of the decoder on a slot that takes commands. -/
theorem rejectCommand_of_selected {s : State} {sl : Slot} (r : Reason) (h : selected s = some sl) :
    rejectCommand r s = putSlot (refuseAt r sl) s := by
  simp [rejectCommand, h]

end Sys2Proof.Machine
end

