-- ==== Sys2Proof/Laws/PerInstr.lean ====
section
/-! SUPPORT. Per command: the encoding of a well-formed command has the command's length, and its header
carries the command's opcode and no reserved bit (30_encoding.md R51, R52, R63). -/

namespace Sys2Proof.Laws.EncodedForm

open Sys2Proof

/-- The opcode of a command (R52). -/
def opcodeFor : Instr → Opcode
  | .new _ _ _ _ _ => .new
  | .reset _ => .reset
  | .enchk _ _ => .enchk
  | .compute _ => .compute
  | .trigmm => .trigmm
  | .event _ => .event

/-- The length and the header of the encoded command. -/
def Statement (i : Instr) : Prop :=
  i.wf = true →
    (encode i).length = i.words ∧ opcodeOf (headerOf i) = some (opcodeFor i) ∧
      headerOf i &&& reservedMask (opcodeFor i) = 0#32

/-- The data words of COMPUTE are `ceil(N/4)` (R57). -/
theorem packBytes_length (d : List Byte) : (packBytes d).length = dataWords d.length := by
  fun_induction packBytes d <;> simp_all [dataWords]
  omega

theorem new (w : Width) (ri ro xo : Bool) (seed : Nat) : Statement (.new w ri ro xo seed) := by
  intro _
  refine ⟨rfl, ?_⟩
  rw [show headerOf (.new w ri ro xo seed) = headerOf (.new w ri ro xo 0) from rfl]
  simp only [opcodeFor]
  cases w <;> cases ri <;> cases ro <;> cases xo <;> decide

theorem reset (seed : Nat) : Statement (.reset seed) := fun _ => ⟨rfl, by simp only [headerOf, opcodeFor]; decide⟩

theorem enchk (ec el : Nat) : Statement (.enchk ec el) := fun _ => ⟨rfl, by simp only [headerOf, opcodeFor]; decide⟩

theorem compute (data : List Byte) : Statement (.compute data) := by
  intro _
  refine ⟨?_, by simp only [headerOf, opcodeFor]; decide⟩
  simp [encode, operandsOf, Instr.words, packBytes_length]
  omega

theorem trigmm : Statement .trigmm := fun _ => ⟨rfl, by simp only [headerOf, opcodeFor]; decide⟩

theorem event (k : EventKind) : Statement (.event k) := fun _ => ⟨rfl, by cases k <;> decide⟩

end Sys2Proof.Laws.EncodedForm
end

