-- ==== Sys2Proof/Tests/Slice0.lean ====
section
/-! SUPPORT. Tests of the model's own: ill-formed terms, words written out from the formats, the spec's vectors
(95_test_vectors.md), one step per command, and a witness for the hypotheses of every statement that has some.
Expected values are the spec's. -/

namespace Sys2Proof.Tests

open Sys2Proof Sys2Proof.Machine

/-! ### WellFormed refuses one ill-formed term per check (R53, R55 to R57) -/

theorem test_wf_refuses_new_seed : (Instr.new .w32 false false false (2 ^ 32)).wf = false := by decide
theorem test_wf_refuses_reset_seed : (Instr.reset (2 ^ 32)).wf = false := by decide
theorem test_wf_refuses_enchk_check : (Instr.enchk (2 ^ 32) 0).wf = false := by decide
theorem test_wf_refuses_enchk_length : (Instr.enchk 0 (2 ^ 32)).wf = false := by decide
theorem test_wf_refuses_compute_length : (Instr.compute (List.replicate (2 ^ 32) 0#8)).wf = false := by
  simp only [Instr.wf, List.length_replicate]
  decide
theorem test_wf_takes_largest_operands :
    (Instr.new .w8 true true true (2 ^ 32 - 1)).wf = true ∧ (Instr.enchk (2 ^ 32 - 1) (2 ^ 32 - 1)).wf = true := by
  decide

/-! ### Decoding: words written out from R53 to R60, most from V8 -/

theorem test_decode_new : decode [0x000001E1#32, 0xFFFFFFFF#32] =
    .command (.new .w32 true true true 0xFFFFFFFF) [] := by decide
/-- `ri` alone is bit 6, `ro` bit 7, `xo` bit 8 (R53). -/
theorem test_decode_new_fields :
    decode [0b001010001#32, 5#32] = .command (.new .w16 true false false 5) [] ∧
    decode [0b010000001#32, 5#32] = .command (.new .w8 false true false 5) [] ∧
    decode [0b100100001#32, 5#32] = .command (.new .w32 false false true 5) [] := by decide
theorem test_decode_reset : decode [0x00000002#32, 0xDBB72DDD#32] = .command (.reset 0xDBB72DDD) [] := by decide
theorem test_decode_enchk : decode [0x00000003#32, 0x209A5692#32, 6#32, 5#32] =
    .command (.enchk 0x209A5692 6) [5#32] := by decide
theorem test_decode_compute : decode [0x00000004#32, 3#32, 0xFF434241#32, 6#32] =
    .command (.compute [0x41#8, 0x42#8, 0x43#8]) [6#32] := by decide
theorem test_decode_trigmm : decode [0x00000005#32] = .command .trigmm [] := by decide
theorem test_decode_event : decode [0x00000006#32] = .command (.event .mismatch) [] ∧
    decode [0x00000016#32] = .command (.event .lengthError) [] := by decide
theorem test_decode_refuses_reserved :
    decode [0x00000000#32] = .reject .reservedOpcode ∧ decode [0x0000000F#32] = .reject .reservedOpcode ∧
    decode [0x00000221#32, 0#32] = .reject .reservedBits ∧ decode [0x00000012#32, 0#32] = .reject .reservedBits ∧
    decode [0x00000026#32] = .reject .reservedBits ∧ decode [0x00000031#32, 0#32] = .reject .reservedWidth ∧
    decode [0x00000231#32, 0#32] = .reject .reservedBits := by decide
theorem test_decode_refuses_truncated :
    decode [0x00000004#32, 5#32, 0x34333231#32] = .reject .truncated ∧
    decode [0x00000003#32, 0x209A5692#32] = .reject .truncated := by decide
/-- Bytes of `0x00000051 0x0000FFFF`, each word little-endian (R50). -/
theorem test_decode_bytes : decodeBytes [0x51#8, 0x00#8, 0x00#8, 0x00#8, 0xFF#8, 0xFF#8, 0x00#8, 0x00#8] =
    .command (.new .w16 true false false 0xFFFF) [] := by decide
/-- P4's data words of "123456789" (R57). -/
theorem test_encode_compute :
    encode (.compute [0x31#8, 0x32#8, 0x33#8, 0x34#8, 0x35#8, 0x36#8, 0x37#8, 0x38#8, 0x39#8]) =
      [4#32, 9#32, 0x34333231#32, 0x38373635#32, 0x00000039#32] := by decide
theorem test_encode_new : encode (.new .w32 false false true 0) = [0x00000121#32, 0#32] := by decide
theorem test_table_words :
    decodeTableWord 32 0x21 = some (.new .w32 false false false 0) ∧ decodeTableWord 32 2 = some (.reset 0) ∧
    decodeTableWord 32 3 = some (.enchk 0 0) ∧ decodeTableWord 32 4 = some (.compute []) ∧
    decodeTableWord 32 5 = some .trigmm ∧ decodeTableWord 32 0x16 = some (.event .lengthError) ∧
    decodeTableWord 32 0x31 = none ∧ decodeTableWord 64 0x300000004 = some (.compute [0#8, 0#8, 0#8]) := by decide

/-! ### The Engine: V1, V2, V3, V4 to V6 -/

theorem test_reflect : reflect 0x12#32 8 = 0x48#32 ∧ reflect 0x0080#32 16 = 0x0100#32 ∧
    reflect 0x12345678#32 32 = 0x1E6A2C48#32 := by decide +kernel
theorem test_units : dataUnit [0x58#8, 0x4D#8, 0x43#8, 0x20#8] 0 .w32 = 0x20434D58#32 ∧
    dataUnit [0x41#8, 0x42#8, 0x43#8] 0 .w16 = 0x4241#32 ∧ unitCount .w16 [0x41#8, 0x42#8, 0x43#8] = 1 := by
  decide
theorem test_feed : feed .w16 0#32 0x0100#32 = 0x3331#32 ∧ feed .w32 0xFFFFFFFF#32 0#32 = 0xC704DD7B#32 ∧
    feedBy 0x07#32 .w8 0#32 0x80#32 = 0x89#32 ∧ feedBy 0x1D#32 .w8 0#32 0xFF#32 = 0xC4#32 := by decide +kernel

/-- "123456789". -/
def digits : List Byte := [0x31#8, 0x32#8, 0x33#8, 0x34#8, 0x35#8, 0x36#8, 0x37#8, 0x38#8, 0x39#8]

/-- "XMC MCU: FCE CRC example". -/
def xmcText : List Byte :=
  [0x58#8, 0x4D#8, 0x43#8, 0x20#8, 0x4D#8, 0x43#8, 0x55#8, 0x3A#8, 0x20#8, 0x46#8, 0x43#8, 0x45#8,
   0x20#8, 0x43#8, 0x52#8, 0x43#8, 0x20#8, 0x65#8, 0x78#8, 0x61#8, 0x6D#8, 0x70#8, 0x6C#8, 0x65#8]

theorem test_crc32 : crcEngine .w32 ⟨true, true, true⟩ 0xFFFFFFFF#32 digits = 0x9AE0DAAF#32 ∧
    crcEngine .w32 ⟨true, false, false⟩ 0#32 digits = 0x63A043FF#32 := by decide +kernel
theorem test_crc16 : crcEngine .w16 ⟨true, true, false⟩ 0#32 digits = 0x8B19#32 ∧
    crcEngine .w16 ⟨false, true, false⟩ 0xFFFF#32 digits = 0x28BC#32 := by decide +kernel
theorem test_crc8 : crcBy 0x07#32 .w8 ⟨true, true, true⟩ 0xFF#32 digits = 0x2F#32 ∧
    crcBy 0x1D#32 .w8 ⟨true, true, true⟩ 0xFF#32 digits = 0x68#32 := by decide +kernel

/-! ### One command each: rows of V7 -/

/-- A slot with a channel of width 32 that holds W1's checksum. -/
def tChannel : Channel :=
  { w := .w32, params := ⟨false, false, false⟩, seed := 0#32, reg := 0x209A5692#32, checkEnabled := true,
    expectedCheck := 0x209A5692#32, expectedLength := 6, mismatchFlag := true, lengthErrorFlag := false }

/-- A slot whose mark is clear. -/
def tSlot (ch : Option Channel) (stream : List Word) : Slot :=
  { channel := ch, mark := none, stream := stream, position := if ch = none then 0 else 1,
    responses := if ch = none then [] else [.ack] }

/-- A block of two slots, the second Absent, the turn at the first. -/
def tState (sl : Slot) : State := { slots := [sl, Slot.absent], sel := 0, schedule := [] }

/-- The first slot after an outcome. -/
def first : Host.Outcome State Fault Refusal → Option Slot
  | .next s => s.slots[0]?
  | .fault _ => none
  | .refused _ => none

theorem test_new_builds : ((first (exec (.new .w16 true false false 0xFFFF) (tState (tSlot none [])))).bind
    Slot.channel) = some
      { w := .w16, params := ⟨true, false, false⟩, seed := 0xFFFF#32, reg := 0xFFFF#32, checkEnabled := false,
        expectedCheck := 0#32, expectedLength := 0, mismatchFlag := false, lengthErrorFlag := false } := by decide
theorem test_new_refuses_seed : ((first (exec (.new .w8 false false false 0x100) (tState (tSlot none [])))).bind
    Slot.mark) = some ⟨.seedRange, 0⟩ := by decide
theorem test_reset_keeps_flags : ((first (exec (.reset 0) (tState (tSlot (some tChannel) [])))).bind
    Slot.channel) = some { tChannel with reg := 0#32 } := by decide
theorem test_reset_refuses_absent : (first (exec (.reset 0) (tState (tSlot none [2#32, 0#32])))) =
    some { tSlot none [2#32, 0#32] with mark := some ⟨.noChannel, 0⟩ } := by decide
theorem test_enchk_replaces : ((first (exec (.enchk 0 0) (tState (tSlot (some tChannel) [])))).bind
    Slot.channel) = some { tChannel with expectedCheck := 0#32, expectedLength := 0 } := by decide
theorem test_enchk_refuses_check :
    ((first (exec (.enchk 0x10000 1) (tState (tSlot (some { tChannel with w := .w16 }) [])))).bind
      Slot.mark) = some ⟨.checkRange, 1⟩ := by decide
/-- 27 bytes: three trailing bytes ignored, word count 6. -/
theorem test_compute_ignores_trailing_bytes :
    ((first (exec (.compute (xmcText ++ [0x21#8, 0x21#8, 0x21#8]))
      (tState (tSlot (some { tChannel with reg := 0#32 }) [])))).map Slot.responses) =
      some [.ack, .computed 0x209A5692#32 0x209A5692#32 false false] := by decide +kernel
/-- "XMC MCU: FCE" against stale expected values sets both flags. -/
theorem test_compute_sets_both_flags :
    ((first (exec (.compute (xmcText.take 12))
      (tState (tSlot (some { tChannel with reg := 0#32 }) [])))).map Slot.responses) =
      some [.ack, .computed 0xDBB72DDD#32 0xDBB72DDD#32 true true] := by decide +kernel
theorem test_trigmm_forces : ((first (exec .trigmm (tState
    (tSlot (some { tChannel with mismatchFlag := false }) [])))).bind Slot.channel) = some tChannel := by decide
theorem test_event_reads : ((first (exec (.event .mismatch) (tState (tSlot (some tChannel) [])))).map
    Slot.responses) = some [.ack, .flag true] ∧
    ((first (exec (.event .lengthError) (tState (tSlot (some tChannel) [])))).map Slot.responses) =
      some [.ack, .flag false] := by decide

/-! ### Steps -/

/-- P5: ENCHK to an Absent slot is refused NO_CHANNEL at position 0, and NEW after it is not executed. -/
theorem test_step_refused_then_silent :
    first (step (tState (tSlot none [3#32, 0x12#32, 1#32, 1#32, 0#32]))) =
      some { tSlot none [3#32, 0x12#32, 1#32, 1#32, 0#32] with mark := some ⟨.noChannel, 0⟩ } ∧
    first (step (tState { tSlot none [1#32, 0#32] with mark := some ⟨.noChannel, 0⟩ })) =
      some { tSlot none [1#32, 0#32] with mark := some ⟨.noChannel, 0⟩ } := by decide
theorem test_step_runs_new : ((first (step (tState (tSlot none [0x121#32, 0#32, 5#32])))).map Slot.stream) =
    some [5#32] := by decide
theorem test_step_rejects : ((first (step (tState (tSlot (some tChannel) [7#32])))).bind Slot.mark) =
    some ⟨.reservedOpcode, 1⟩ := by decide
theorem test_step_faults_outside_the_block :
    step { tState (tSlot none []) with sel := 2 } = .fault .noSuchSlot := by rfl
/-- From reset the very next step runs the word placed (log entry 9). -/
theorem test_fetch_word_from_reset :
    step (State.reset.withFetchWord 32 0x121) =
      exec (.new .w32 false false true 0) (State.reset.withFetchWord 32 0x121) := by rfl
theorem test_reset_then_new : ((first (step (State.reset.withFetchWord 32 0x121))).bind Slot.channel).isSome =
    true := by decide
theorem test_assembler : assembleLine "NEW 32, 1, 1, 1, 0xFFFFFFFF".toList =
    some (.new .w32 true true true 0xFFFFFFFF) ∧
    assembleLine "COMPUTE \"ABC\"".toList = some (.compute [0x41#8, 0x42#8, 0x43#8]) ∧
    assembleLine "event MISMATCH".toList = some (.event .mismatch) := by decide
/-- A number that does not fit its operand word gives no words (log entry 18); one that fits gives R55's words. -/
theorem test_assembler_refuses_wide_number :
    assembleProgram ["RESET 0x100000000".toList] = none ∧
    assembleProgram ["RESET 0xFFFFFFFF".toList] = some [2#32, 0xFFFFFFFF#32] := by decide
/-- A command sent in part by its slot's turn is TRUNCATED (R64; log entry 20). -/
theorem test_partly_sent_command_is_truncated :
    ((first (step (tState (tSlot (some tChannel) [2#32])))).bind Slot.mark) = some ⟨.truncated, 1⟩ := by decide

/-! ### Witnesses: for each statement with hypotheses, a state and operands that meet them together -/

/-- A marked slot. -/
def tMarked : Slot := { tSlot (some tChannel) [1#32] with mark := some ⟨.seedRange, 1⟩ }

theorem ready_absent (ws : List Word) : Ready (tState (tSlot none ws)) (tSlot none ws) := ⟨rfl, rfl⟩
theorem ready_present (ch : Channel) (ws : List Word) :
    ReadyChannel (tState (tSlot (some ch) ws)) (tSlot (some ch) ws) ch := ⟨⟨rfl, rfl⟩, rfl⟩

theorem witness_BlockResetLeavesEverySlotAbsent :
    Slot.absent ∈ State.reset.slots ∧ Slot.absent ∈ (blockReset (tState tMarked)).slots := by
  simp [State.reset, Config.nch, blockReset, tState, List.replicate_succ]
theorem witness_ReflectMovesEveryBit :
    (0xFF#32).toNat < 2 ^ bits .w8 ∧ 7 < bits .w8 ∧ (0xFFFFFFFF#32).toNat < 2 ^ bits .w32 ∧ 31 < bits .w32 := by
  decide
theorem witness_ReflectLaws : (0xFFFF#32).toNat < 2 ^ bits .w16 ∧ (0#32).toNat < 2 ^ bits .w16 := by decide
theorem witness_InputReflectionFeedsBytesInOrder :
    (⟨true, false, false⟩ : Params).reflectIn = true ∧ 1 < unitCount .w16 [1#8, 2#8, 3#8, 4#8] ∧
    1 < unitBytes .w16 ∧ 7 < 8 ∧ (⟨false, true, true⟩ : Params).reflectIn = false := by decide
theorem witness_DivisionStepShiftsAndSubtracts :
    (0x80#32).toNat < 2 ^ bits .w8 ∧ (0x7FFFFFFF#32).toNat < 2 ^ bits .w32 := by decide
theorem witness_FeedIsRemainderModuloGenerator :
    (0xFFFF#32).toNat < 2 ^ bits .w16 ∧ (0x8000#32).toNat < 2 ^ bits .w16 := by decide
theorem witness_FeedIsLinearOverXor :
    (0xFF#32).toNat < 2 ^ bits .w8 ∧ (0x80#32).toNat < 2 ^ bits .w8 ∧ (1#32).toNat < 2 ^ bits .w8 ∧
    (0#32).toNat < 2 ^ bits .w8 := by decide
theorem witness_OutputTransformBitByBit : (0x209A5692#32).toNat < 2 ^ bits .w32 ∧ 31 < bits .w32 := by decide
theorem witness_EngineStaysInRange : (0xFFFF#32).toNat < 2 ^ bits .w16 := by decide
theorem witness_UnitsAreLittleEndianNumbers : 1 < unitCount .w32 digits ∧ ¬ 2 < unitCount .w32 digits := by decide
theorem witness_TrailingPartialUnitIgnored :
    xmcText.length % unitBytes tChannel.w = 0 ∧ ([1#8, 2#8, 3#8] : List Byte).length < unitBytes tChannel.w := by
  decide
theorem witness_EmptyInputTransformsTheSeed :
    ([1#8, 2#8, 3#8] : List Byte).length < unitBytes .w32 ∧ (⟨true, false, false⟩ : Params).reflectOut = false ∧
    (⟨true, false, false⟩ : Params).invertOut = false ∧ (0x1234#32).toNat < 2 ^ bits .w32 := by decide
theorem witness_InversionComplementsTheResult : (0xFF#32).toNat < 2 ^ bits .w8 := by decide
theorem witness_WholeUnitsChain :
    (xmcText.take 12).length % unitBytes .w32 = 0 ∧ (0#32).toNat < 2 ^ bits .w32 ∧
    (⟨true, false, false⟩ : Params).reflectOut = false ∧ (⟨true, false, false⟩ : Params).invertOut = false ∧
    ((⟨false, true, false⟩ : Params).reflectOut = true ∨ (⟨false, true, false⟩ : Params).invertOut = true) := by
  decide
theorem witness_DecodeOfEncodeIsTheCommand :
    (Instr.new .w32 true true true (2 ^ 32 - 1)).wf = true ∧ (Instr.compute digits).wf = true := by decide
theorem witness_DecodedCommandMatchesItsWords :
    decode [4#32, 3#32, 0xFF434241#32, 6#32] = .command (.compute [0x41#8, 0x42#8, 0x43#8]) [6#32] ∧
    decode [2#32, 7#32, 6#32] = .command (.reset 7) [6#32] ∧ (∀ d, Instr.reset 7 ≠ .compute d) :=
  ⟨by decide, by decide, by simp⟩
theorem witness_ComputeDataBytes :
    ([0x34333231#32, 0x38373635#32, 0xFFFFFF39#32] : List Word).length = dataWords (9#32).toNat ∧
    8 < (9#32).toNat := by decide
theorem witness_ReservedOpcodesRefused :
    (0x10#32).extractLsb' 0 4 = 0#4 ∧ 7 ≤ ((7#32).extractLsb' 0 4).toNat ∧ 7 ≤ ((0xF#32).extractLsb' 0 4).toNat ∧
    ¬ 7 ≤ ((6#32).extractLsb' 0 4).toNat := by decide
theorem witness_ReservedBitsAndWidthRefused :
    ((0x231#32).extractLsb' 0 4 = 1#4 ∧ (0x231#32).extractLsb' 9 23 ≠ 0#23) ∧
    (2 ≤ ((0x12#32).extractLsb' 0 4).toNat ∧ ((0x80000005#32).extractLsb' 0 4).toNat ≤ 5 ∧
      (0x12#32).extractLsb' 4 28 ≠ 0#28 ∧ (0x80000005#32).extractLsb' 4 28 ≠ 0#28) ∧
    ((0x26#32).extractLsb' 0 4 = 6#4 ∧ (0x26#32).extractLsb' 5 27 ≠ 0#27) ∧
    ((0x1F1#32).extractLsb' 0 4 = 1#4 ∧ (0x1F1#32).extractLsb' 9 23 = 0#23 ∧
      (0x1F1#32).extractLsb' 4 2 = 3#2) ∧
    ((0x1E1#32).extractLsb' 0 4 = 1#4 ∧ (0x1E1#32).extractLsb' 9 23 = 0#23 ∧
      (0x1E1#32).extractLsb' 4 2 ≠ 3#2) := by decide
theorem witness_TruncatedStreamsRefused :
    ((Instr.compute digits).wf = true ∧ 0 < 4 ∧ 4 < (Instr.compute digits).words) ∧
    Ready (tState (tSlot none [])) (tSlot none []) ∧ (tSlot none []).stream = [] :=
  ⟨by decide, ready_absent [], rfl⟩
theorem witness_LaterWordsDoNotChangeACommand :
    decode [4#32, 1#32, 0x41#32, 6#32] = .command (.compute [0x41#8]) [6#32] := by decide
theorem witness_WordsSurviveTheByteStream : 1 < ([1#32, 2#32] : List Word).length ∧ 3 < 4 := by decide
theorem witness_StringOperandHasNoTerminator : ∀ c ∈ ['A', ',', ' '], c.toNat < 128 ∧ c ≠ '"' := by
  simp
theorem witness_NewBuildsTheChannel :
    Ready (tState (tSlot none [])) (tSlot none []) ∧ 0xFF < 2 ^ bits .w8 ∧ 2 ^ bits .w8 ≤ 0x100 :=
  ⟨ready_absent [], by decide, by decide⟩
theorem witness_ResetWritesTheRegisterAlone :
    ReadyChannel (tState (tSlot (some tChannel) [])) (tSlot (some tChannel) []) tChannel ∧
    0xFFFFFFFF < 2 ^ bits tChannel.w ∧ 2 ^ bits tChannel.w ≤ 0x100000000 ∧
    Ready (tState (tSlot none [])) (tSlot none []) ∧ (tSlot none []).channel = none :=
  ⟨ready_present _ _, by decide, by decide, ready_absent [], rfl⟩
theorem witness_EnchkArmsTheCheck :
    ReadyChannel (tState (tSlot (some tChannel) [])) (tSlot (some tChannel) []) tChannel ∧
    0xFFFFFFFF < 2 ^ bits tChannel.w ∧ 2 ^ bits tChannel.w ≤ 0x100000000 ∧
    Ready (tState (tSlot none [])) (tSlot none []) ∧ (tSlot none []).channel = none :=
  ⟨ready_present _ _, by decide, by decide, ready_absent [], rfl⟩
theorem witness_ComputeChecksItsResult :
    ReadyChannel (tState (tSlot (some tChannel) [])) (tSlot (some tChannel) []) tChannel ∧
    Ready (tState (tSlot none [])) (tSlot none []) ∧ (tSlot none []).channel = none :=
  ⟨ready_present _ _, ready_absent [], rfl⟩
theorem witness_TrigmmForcesTheMismatchFlag :
    ReadyChannel (tState (tSlot (some tChannel) [5#32])) (tSlot (some tChannel) [5#32]) tChannel ∧
    Ready (tState (tSlot none [5#32])) (tSlot none [5#32]) ∧ (tSlot none [5#32]).channel = none :=
  ⟨ready_present _ _, ready_absent _, rfl⟩
theorem witness_EventReadsWithoutClearing :
    ReadyChannel (tState (tSlot (some tChannel) [6#32])) (tSlot (some tChannel) [6#32]) tChannel ∧
    Ready (tState (tSlot none [6#32])) (tSlot none [6#32]) ∧ (tSlot none [6#32]).channel = none :=
  ⟨ready_present _ _, ready_absent _, rfl⟩
theorem witness_WhichCommandsASlotAccepts :
    (ReadyChannel (tState (tSlot (some tChannel) [])) (tSlot (some tChannel) []) tChannel ∧
      (∀ w ri ro xo seed, Instr.enchk 0xFFFFFFFF 0 = .new w ri ro xo seed → seed < 2 ^ bits w) ∧
      (∀ seed, Instr.enchk 0xFFFFFFFF 0 = .reset seed → seed < 2 ^ bits tChannel.w) ∧
      (∀ ec el, Instr.enchk 0xFFFFFFFF 0 = .enchk ec el → ec < 2 ^ bits tChannel.w)) ∧
    (Ready (tState (tSlot none [])) (tSlot none []) ∧ (tSlot none []).channel = none ∧ 0xFF < 2 ^ bits .w8 ∧
      (∀ w ri ro xo seed, Instr.trigmm ≠ .new w ri ro xo seed)) := by
  refine ⟨⟨ready_present _ _, by simp, by simp, ?_⟩, ready_absent [], rfl, by decide, by simp⟩
  rintro ec el ⟨⟩
  decide
theorem witness_FlagsAreOfTheLastCompute :
    ReadyChannel (tState (tSlot (some tChannel) [])) (tSlot (some tChannel) []) tChannel := ready_present _ _
theorem witness_MismatchAndLengthErrorIndependent : (0xFF#32).toNat < 2 ^ bits .w8 := by decide
theorem witness_EmptyDataInCheckMode :
    ReadyChannel (tState (tSlot (some tChannel) [])) (tSlot (some tChannel) []) tChannel ∧
    tChannel.checkEnabled = true ∧ ([1#8, 2#8, 3#8] : List Byte).length < unitBytes tChannel.w :=
  ⟨ready_present _ _, rfl, by decide⟩
theorem witness_StepRunsTheDecodedCommand :
    (Ready (tState (tSlot none [0x21#32, 0#32])) (tSlot none [0x21#32, 0#32]) ∧
      (tSlot none [0x21#32, 0#32]).stream ≠ [] ∧
      decode (tSlot none [0x21#32, 0#32]).stream = .command (.new .w32 false false false 0) []) ∧
    selected { tState (tSlot none []) with sel := 2 } = none :=
  ⟨⟨ready_absent _, by decide, by decide⟩, rfl⟩
theorem witness_DecoderRefusalMarksTheSlot :
    Ready (tState (tSlot none [7#32])) (tSlot none [7#32]) ∧ (tSlot none [7#32]).stream ≠ [] ∧
    decode (tSlot none [7#32]).stream = .reject .reservedOpcode :=
  ⟨ready_absent _, by decide, by decide⟩
theorem witness_MarkedSlotNeverChanges :
    (tState tMarked).slots[0]? = some tMarked ∧ tMarked.mark = some ⟨.seedRange, 1⟩ ∧
    exec .trigmm (tState tMarked) = .next (tState tMarked) ∧ step (tState tMarked) = .next (tState tMarked) :=
  ⟨rfl, rfl, rfl, rfl⟩
theorem witness_RefusalCodesAndOrder :
    Ready (tState (tSlot none [])) (tSlot none []) ∧ (tSlot none []).channel = none := ⟨ready_absent [], rfl⟩
theorem witness_EndedSlotsStayAsTheyAre :
    (tState tMarked).slots[1]? = some Slot.absent ∧ NormalEnd Slot.absent ∧ RefusedEnd tMarked ∧
    step (tState tMarked) = .next (tState tMarked) := ⟨rfl, ⟨rfl, rfl⟩, ⟨_, rfl⟩, rfl⟩
theorem witness_RunEndsWithinItsStream :
    selected (tState (tSlot none [5#32])) = some (tSlot none [5#32]) ∧
    (tState (tSlot none [5#32])).schedule = [] := ⟨rfl, rfl⟩
theorem witness_OneResponsePerAcceptedCommand :
    Ready (tState (tSlot (some tChannel) [])) (tSlot (some tChannel) []) := (ready_present _ _).1
theorem witness_EveryStepAnswersANextState : (tState tMarked).sel < (tState tMarked).slots.length := by decide
theorem witness_CommandsWriteOnlyTheirFields :
    exec .trigmm (tState (tSlot (some tChannel) [5#32])) =
      .next (putSlot (acceptAt 1 tChannel .ack (tSlot (some tChannel) [5#32]))
        (tState (tSlot (some tChannel) [5#32]))) ∧
    selected (tState (tSlot (some tChannel) [5#32])) = some (tSlot (some tChannel) [5#32]) := ⟨rfl, rfl⟩
theorem witness_CheckStateTransitions :
    Ready (tState (tSlot none [])) (tSlot none []) ∧ (tSlot none []).channel = none ∧
    (∀ w ri ro xo seed, Instr.event .mismatch ≠ .new w ri ro xo seed) := ⟨ready_absent [], rfl, by simp⟩
theorem witness_CommandDependsOnItsChannelAlone :
    Ready (tState (tSlot (some tChannel) [])) (tSlot (some tChannel) []) ∧
    Ready { slots := [tMarked, { tSlot (some tChannel) [5#32] with position := 7 }], sel := 1, schedule := [0] }
      { tSlot (some tChannel) [5#32] with position := 7 } ∧
    (tSlot (some tChannel) []).channel = (tSlot (some tChannel) [5#32]).channel := ⟨⟨rfl, rfl⟩, ⟨rfl, rfl⟩, rfl⟩
theorem witness_CommandsToDifferentSlotsCommute :
    (0 : Nat) ≠ 1 ∧ 0 < (tState tMarked).slots.length ∧ 1 < (tState tMarked).slots.length := by decide
theorem witness_StepsOfDifferentSlotsCommute :
    (0 : Nat) ≠ 1 ∧ 0 < (tState tMarked).slots.length ∧ 1 < (tState tMarked).slots.length := by decide
theorem witness_StepKeepsTheInvariant :
    BlockInv (tState tMarked) ∧ step (tState tMarked) = .next (tState tMarked) := by
  refine ⟨⟨by decide, by simp [tState], ?_⟩, rfl⟩
  intro sl h
  simp only [tState, List.mem_cons, List.not_mem_nil, or_false] at h
  rcases h with rfl | rfl
  · refine ⟨?_, by simp [tMarked, tSlot], by simp [tMarked, tSlot], ?_⟩
    · rintro ch ⟨⟩
      exact ⟨by decide, by decide⟩
    · rintro m ⟨⟩
      simp [tMarked, tSlot]
  · exact ⟨by simp [Slot.absent], by simp [Slot.absent], rfl, by simp [Slot.absent]⟩
theorem witness_RunsKeepTheInvariant : BlockInv (tState tMarked) := witness_StepKeepsTheInvariant.1

end Sys2Proof.Tests
end

/-! # Proofs of the family 00_scope: the generator polynomials and the block's invariant -/

/-! ### Ranges of the values a command writes (R8) -/

section
namespace Sys2Proof.Machine

/-- POLY8 is one of its two admissible values (R7). -/
theorem config_poly8_cases : Config.poly8 = 0x07#32 ∨ Config.poly8 = 0x1D#32 := by
  unfold Config.poly8
  split
  · exact .inr rfl
  · exact .inl rfl

/-- The mask at the end of OUT leaves `w` bits, whatever register goes in (R72). -/
theorem out_lt (w : Width) (p : Params) (r : Word) : (out w p r).toNat < 2 ^ bits w := by
  refine (toNat_lt_iff_bits _ _).mpr fun i hi => ?_
  simp [out, mask_getLsbD, Nat.not_lt.mpr hi]

/-- The checksum of a COMPUTE, which becomes the register, is a value of `w` bits (R76). -/
theorem checksumOf_lt (d : List Byte) (ch : Channel) : (checksumOf d ch).toNat < 2 ^ bits ch.w :=
  out_lt ch.w ch.params _

/-- An operand that passes the range check of R95 fits the channel as a word. -/
theorem toNat_ofNat_lt_bits {w : Width} {n : Nat} (h : ¬ 2 ^ bits w ≤ n) :
    (BitVec.ofNat 32 n).toNat < 2 ^ bits w := by
  rw [BitVec.toNat_ofNat]
  exact lt_of_le_of_lt (Nat.mod_le _ _) (Nat.not_le.mp h)

end Sys2Proof.Machine
end

/-! ### What each command makes of a channel that meets its invariant -/

section
namespace Sys2Proof.Machine

/-- The channel's part of `SlotInv`: values in range (R8), and clean in Idle (R25, R27). -/
abbrev ChannelInv (ch : Channel) : Prop := InRange ch ∧ IdleClean ch

/-- The channel an answer leaves in its slot, where it accepts, meets the channel's invariant. -/
def Answer.Inv : Answer → Prop
  | .accept ch _ => ChannelInv ch
  | .refuse _ => True

/-- NEW builds an Idle channel with the expected values 0 and both flags clear (R25, R81). -/
theorem newAnswer_inv (w : Width) (ri ro xo : Bool) (seed : Nat) : (newAnswer w ri ro xo seed).Inv := by
  unfold newAnswer
  split
  case isTrue => exact trivial
  case isFalse hseed =>
    have hlt := toNat_ofNat_lt_bits hseed
    exact ⟨⟨hlt, hlt, Nat.two_pow_pos _⟩, fun _ => ⟨rfl, rfl, rfl⟩⟩

/-- RESET writes the register alone (R82). -/
theorem resetAnswer_inv (seed : Nat) {ch : Channel} (h : ChannelInv ch) : (resetAnswer seed ch).Inv := by
  obtain ⟨⟨hseed, _, hcheck⟩, hidle⟩ := h
  unfold resetAnswer
  split
  case isTrue => exact trivial
  case isFalse hnew => exact ⟨⟨hseed, toNat_ofNat_lt_bits hnew, hcheck⟩, hidle⟩

/-- ENCHK leaves Idle, so that only the range of the expected check is left to see (R83). -/
theorem enchkAnswer_inv (ec el : Nat) {ch : Channel} (h : ChannelInv ch) : (enchkAnswer ec el ch).Inv := by
  obtain ⟨⟨hseed, hreg, _⟩, _⟩ := h
  unfold enchkAnswer
  split
  case isTrue => exact trivial
  case isFalse hec => exact ⟨⟨hseed, hreg, toNat_ofNat_lt_bits hec⟩, fun hidle => nomatch hidle⟩

/-- COMPUTE writes a checksum in range, and out of check mode leaves the length error flag clear (R84). -/
theorem computeAnswer_inv (d : List Byte) {ch : Channel} (h : ChannelInv ch) : (computeAnswer d ch).Inv := by
  obtain ⟨⟨hseed, _, hcheck⟩, hidle⟩ := h
  refine ⟨?_, fun hoff => ?_⟩
  · simpa [InRange, computedChannel] using ⟨hseed, checksumOf_lt d ch, hcheck⟩
  · have hoff : ch.checkEnabled = false := by simpa [computedChannel] using hoff
    obtain ⟨hec, hel, _⟩ := hidle hoff
    refine ⟨by simpa [computedChannel] using hec, by simpa [computedChannel] using hel, ?_⟩
    simp [computedChannel, checkResult_lengthErrorFlag, hoff]

/-- TRIGMM writes the mismatch flag, of which the invariant does not speak (R85). -/
theorem trigmmAnswer_inv {ch : Channel} (h : ChannelInv ch) : (trigmmAnswer ch).Inv := h

/-- EVENT writes nothing of the channel (R86). -/
theorem eventAnswer_inv (k : EventKind) {ch : Channel} (h : ChannelInv ch) : (eventAnswer k ch).Inv := h

/-- A command that Absent slots refuse keeps the invariant if it does so on every present channel. -/
theorem onPresent_inv {f : Channel → Answer} (hf : ∀ {ch}, ChannelInv ch → (f ch).Inv) {o : Option Channel}
    (ho : ∀ ch ∈ o, ChannelInv ch) : (onPresent f o).Inv := by
  cases o with
  | none => exact trivial
  | some ch => exact hf (ho ch rfl)

/-- Every command keeps the invariant of the channel it is given. -/
theorem answerOf_inv (i : Instr) {o : Option Channel} (ho : ∀ ch ∈ o, ChannelInv ch) : (answerOf i o).Inv := by
  cases i with
  | new w ri ro xo seed => exact newAnswer_inv w ri ro xo seed
  | reset seed => exact onPresent_inv (resetAnswer_inv seed) ho
  | enchk ec el => exact onPresent_inv (enchkAnswer_inv ec el) ho
  | compute data => exact onPresent_inv (computeAnswer_inv data) ho
  | trigmm => exact onPresent_inv trigmmAnswer_inv ho
  | event k => exact onPresent_inv (eventAnswer_inv k) ho

end Sys2Proof.Machine
end

/-! ### What the shared operations keep of a slot and of the block -/

section
namespace Sys2Proof.Machine

/-- A refusal marks the slot at its own position and changes nothing else (R95, R96). -/
theorem refuseAt_slotInv (r : Reason) {sl : Slot} (h : SlotInv sl) : SlotInv (refuseAt r sl) := by
  obtain ⟨hch, habsent, hresp, _⟩ := h
  refine ⟨hch, habsent, hresp, ?_⟩
  rintro m ⟨⟩
  rfl

/-- An accepted command counts one position and one response (R30, R49); with the mark clear, no mark has to keep
up with the new position. -/
theorem acceptAt_slotInv (len : Nat) {ch : Channel} (r : Response) {sl : Slot} (h : SlotInv sl)
    (hmark : sl.mark = none) (hch : ChannelInv ch) : SlotInv (acceptAt len ch r sl) := by
  obtain ⟨_, _, hresp, _⟩ := h
  refine ⟨?_, by simp, by simp [hresp], by simp [hmark]⟩
  rintro ch' ⟨⟩
  exact hch

/-- An unmarked slot that takes an answer. -/
theorem settle_slotInv (len : Nat) {a : Answer} {sl : Slot} (h : SlotInv sl) (hmark : sl.mark = none)
    (ha : a.Inv) : SlotInv (settle len a sl) := by
  cases a with
  | accept ch r => exact acceptAt_slotInv len r h hmark ha
  | refuse r => exact refuseAt_slotInv r h

/-- The selected slot is one of the block's slots, so it meets its own invariant. -/
theorem selected_slotInv {s : State} {sl : Slot} (h : BlockInv s) (hs : selected s = some sl) : SlotInv sl := by
  obtain ⟨_, _, hslots⟩ := h
  exact hslots sl (List.mem_of_getElem? hs)

/-- A slot that meets its invariant may replace the selected one. -/
theorem putSlot_blockInv {s : State} {sl : Slot} (h : BlockInv s) (hsl : SlotInv sl) :
    BlockInv (putSlot sl s) := by
  obtain ⟨hsel, hsched, hslots⟩ := h
  refine ⟨by simpa using hsel, by simpa using hsched, fun sl' hmem => ?_⟩
  rcases List.mem_or_eq_of_mem_set hmem with hold | rfl
  · exact hslots sl' hold
  · exact hsl

/-- The turn passes to a slot of the schedule, or stays where it is (R44). -/
theorem endTurn_blockInv {s : State} (h : BlockInv s) : BlockInv (endTurn s) := by
  obtain ⟨hsel, hsched, hslots⟩ := h
  refine ⟨?_, fun k hk => hsched k (List.mem_of_mem_tail hk), hslots⟩
  rw [endTurn_sel, endTurn_slots]
  cases hq : s.schedule with
  | nil => exact hsel
  | cons k ks => exact hsched k (by simp [hq])

/-- A refusal of the decoder keeps the block's invariant (R63, R96). -/
theorem rejectCommand_blockInv (r : Reason) {s : State} (h : BlockInv s) : BlockInv (rejectCommand r s) := by
  obtain ⟨sl, hs⟩ := selected_of_lt h.1
  rw [rejectCommand_of_selected r hs]
  exact putSlot_blockInv h (refuseAt_slotInv r (selected_slotInv h hs))

/-- Every command keeps the block's invariant, whether it is accepted, refused, or given to a marked slot. -/
theorem exec_blockInv {i : Instr} {s t : State} (h : BlockInv s) (ht : exec i s = .next t) : BlockInv t := by
  obtain ⟨sl, hs, ⟨_, _, rfl⟩ | ⟨hmark, rfl⟩⟩ := exec_cases ht
  · exact h
  · have hsl := selected_slotInv h hs
    exact putSlot_blockInv h (settle_slotInv _ hsl hmark (answerOf_inv i hsl.1))

/-- Every step keeps the block's invariant. -/
theorem step_blockInv {s t : State} (h : BlockInv s) (ht : step s = .next t) : BlockInv t := by
  obtain ⟨_, rfl⟩ | ⟨r, _, rfl⟩ | ⟨i, u, _, hu, rfl⟩ := step_cases ht
  · exact endTurn_blockInv h
  · exact endTurn_blockInv (rejectCommand_blockInv r h)
  · exact endTurn_blockInv (exec_blockInv h hu)

end Sys2Proof.Machine
end

/-! ### No stop while the turn names a slot of the block -/

section
namespace Sys2Proof.Machine

/-- A command to a slot the block has answers a next state, marked or not (R93, R96). -/
theorem exec_answers_next (i : Instr) {s : State} (h : s.sel < s.slots.length) : ∃ t, exec i s = .next t := by
  obtain ⟨sl, hs⟩ := selected_of_lt h
  rw [exec_eq_command]
  cases hm : sl.mark with
  | none => exact ⟨_, command_of_ready _ _ ⟨hs, hm⟩⟩
  | some m => exact ⟨s, command_of_marked _ _ hs hm⟩

/-- The decoder's reading is a command or a refusal, never a missing slot. -/
theorem fetchedOf_ne_noSlot (d : Decoded) : fetchedOf d ≠ .noSlot := by
  cases d <;> simp [fetchedOf]

/-- A slot's own turn is quiet or gives what the decoder reads. -/
theorem fetchSlot_ne_noSlot (sl : Slot) : fetchSlot sl ≠ .noSlot := by
  unfold fetchSlot
  split
  · simp
  · simp
  · exact fetchedOf_ne_noSlot _

/-- A slot the block has is found by its turn. -/
theorem fetch_ne_noSlot {s : State} (h : s.sel < s.slots.length) : fetch s ≠ .noSlot := by
  obtain ⟨sl, hs⟩ := selected_of_lt h
  simpa [fetch, hs] using fetchSlot_ne_noSlot sl

/-- A step whose turn names a slot the block has answers a next state (R93, R99). -/
theorem step_answers_next {s : State} (h : s.sel < s.slots.length) : ∃ t, step s = .next t := by
  unfold step
  cases hf : fetch s with
  | noSlot => exact absurd hf (fetch_ne_noSlot h)
  | quiet => exact ⟨_, rfl⟩
  | rejected r => exact ⟨_, rfl⟩
  | command i =>
    obtain ⟨u, hu⟩ := exec_answers_next i h
    exact ⟨endTurn u, by simp [hu, thenEndTurn]⟩

/-- A run of `n + 1` steps whose first step answers a next state is the run of `n` steps from there. -/
theorem run_succ_of_step {s t : State} (n : Nat) (h : step s = .next t) :
    Host.Core.run Sys2Proof.core (n + 1) s = Host.Core.run Sys2Proof.core n t := by
  simp [Host.Core.run, Sys2Proof.core, h]

/-- Every run from a state that meets the invariant answers a state that meets it. -/
theorem run_blockInv (n : Nat) {s : State} (h : BlockInv s) :
    ∃ t, Host.Core.run Sys2Proof.core n s = .next t ∧ BlockInv t := by
  induction n generalizing s with
  | zero => exact ⟨s, rfl, h⟩
  | succ n ih =>
    obtain ⟨u, hu⟩ := step_answers_next h.1
    rw [run_succ_of_step n hu]
    exact ih (step_blockInv h hu)

end Sys2Proof.Machine
end

/-! ### The obligations -/

section
namespace Sys2Proof.Machine

/-- Settles O52, by cases on what the step does: an idle turn, a refusal of the decoder, or a command. -/
theorem stepKeepsTheInvariant : Obligations.StepKeepsTheInvariant :=
  fun _ _ h ht => step_blockInv h ht

/-- Settles O54, by induction on the number of steps. -/
theorem runsKeepTheInvariant : Obligations.RunsKeepTheInvariant :=
  fun n _ h => run_blockInv n h

/-- Settles O2, by cases on the value POLY8 leaves open. -/
theorem generatorPolynomials : Obligations.GeneratorPolynomials :=
  ⟨rfl, rfl, config_poly8_cases⟩

end Sys2Proof.Machine
end

/-! # Proofs of the family 10_state: what a command writes, and the check-state machine -/

/-! ### The channel an accepted command leaves -/

section
namespace Sys2Proof.Machine

/-- NEW is accepted with the channel it builds (R81). -/
theorem newAnswer_accept {w : Width} {ri ro xo : Bool} {seed : Nat} {ch : Channel} {r : Response}
    (h : newAnswer w ri ro xo seed = .accept ch r) :
    ch = builtChannel w { reflectIn := ri, reflectOut := ro, invertOut := xo } (BitVec.ofNat 32 seed) := by
  unfold newAnswer at h
  split at h
  · cases h
  · cases h
    rfl

/-- RESET is accepted with the register at its operand (R82). -/
theorem resetAnswer_accept {seed : Nat} {ch ch' : Channel} {r : Response}
    (h : resetAnswer seed ch = .accept ch' r) : ch' = { ch with reg := BitVec.ofNat 32 seed } := by
  unfold resetAnswer at h
  split at h
  · cases h
  · cases h
    rfl

/-- ENCHK is accepted with check mode on and both expected values at its operands (R83). -/
theorem enchkAnswer_accept {ec el : Nat} {ch ch' : Channel} {r : Response}
    (h : enchkAnswer ec el ch = .accept ch' r) :
    ch' = { ch with checkEnabled := true, expectedCheck := BitVec.ofNat 32 ec, expectedLength := el } := by
  unfold enchkAnswer at h
  split at h
  · cases h
  · cases h
    rfl

/-- The comparison of COMPUTE writes the two flags alone (R84 step 4). -/
theorem checkResult_writes_flags (c : Word) (n : Nat) (ch : Channel) :
    checkResult c n ch = { ch with
      mismatchFlag := (checkResult c n ch).mismatchFlag
      lengthErrorFlag := (checkResult c n ch).lengthErrorFlag } := by
  unfold checkResult
  split <;> rfl

/-- COMPUTE leaves the checksum in the register, and writes the two flags besides (R84). -/
theorem computedChannel_writes_reg_flags (d : List Byte) (ch : Channel) :
    computedChannel d ch = { ch with
      reg := checksumOf d ch
      mismatchFlag := (computedChannel d ch).mismatchFlag
      lengthErrorFlag := (computedChannel d ch).lengthErrorFlag } :=
  checkResult_writes_flags _ _ _

/-- A command that Absent slots refuse is accepted only on a present channel (R87). -/
theorem onPresent_accept {f : Channel → Answer} {o : Option Channel} {ch' : Channel} {r : Response}
    (h : onPresent f o = .accept ch' r) : ∃ ch, o = some ch ∧ f ch = .accept ch' r := by
  cases o with
  | none => cases h
  | some ch => exact ⟨ch, rfl, h⟩

/-- Every command but NEW is refused by an Absent slot (R87). -/
theorem answerOf_absent {i : Instr} (hi : ∀ w ri ro xo seed, i ≠ .new w ri ro xo seed) :
    answerOf i none = .refuse .noChannel := by
  cases i with
  | new w ri ro xo seed => exact absurd rfl (hi w ri ro xo seed)
  | reset _ | enchk _ _ | compute _ | trigmm | event _ => rfl

end Sys2Proof.Machine
end

/-! ### The write columns of the access matrix (R31) -/

section
namespace Sys2Proof.Machine

/-- The channel after a command differs from the one before it only in fields the command's column of the access
matrix lets it write (R31). -/
def WritesOnly : Instr → Channel → Channel → Prop
  | .new _ _ _ _ _, _, _ => True
  | .reset _, ch, ch' => ch' = { ch with reg := ch'.reg }
  | .enchk _ _, ch, ch' => ch' =
      { ch with
        checkEnabled := ch'.checkEnabled
        expectedCheck := ch'.expectedCheck
        expectedLength := ch'.expectedLength }
  | .compute _, ch, ch' => ch' =
      { ch with reg := ch'.reg, mismatchFlag := ch'.mismatchFlag, lengthErrorFlag := ch'.lengthErrorFlag }
  | .trigmm, ch, ch' => ch' = { ch with mismatchFlag := ch'.mismatchFlag }
  | .event _, ch, ch' => ch' = ch

/-- Writing nothing is within every column. -/
theorem writesOnly_refl (i : Instr) (ch : Channel) : WritesOnly i ch ch := by
  cases i with
  | new _ _ _ _ _ => exact trivial
  | reset _ | enchk _ _ | compute _ | trigmm | event _ => rfl

/-- An accepted command keeps to its column of the access matrix. -/
theorem writesOnly_of_accept {i : Instr} {ch ch' : Channel} {r : Response}
    (h : answerOf i (some ch) = .accept ch' r) : WritesOnly i ch ch' := by
  cases i with
  | new _ _ _ _ _ => exact trivial
  | reset seed =>
    cases resetAnswer_accept h
    rfl
  | enchk ec el =>
    cases enchkAnswer_accept h
    rfl
  | compute data =>
    cases h
    have hreg : (computedChannel data ch).reg = checksumOf data ch := by simp [computedChannel]
    simpa only [WritesOnly, hreg] using computedChannel_writes_reg_flags data ch
  | trigmm =>
    cases h
    rfl
  | event k =>
    cases h
    rfl

/-- The channel of the selected slot after a command: as it was (a marked slot, a refusal), or the one the command
was accepted with. -/
theorem exec_channel_cases {i : Instr} {s t : State} {sl tl : Slot} (h : exec i s = .next t)
    (hs : selected s = some sl) (ht : selected t = some tl) :
    tl.channel = sl.channel ∨ ∃ ch r, answerOf i sl.channel = .accept ch r ∧ tl.channel = some ch := by
  obtain ⟨sl', hs', ⟨_, _, rfl⟩ | ⟨_, rfl⟩⟩ := exec_cases h <;> cases hs.symm.trans hs'
  · cases hs.symm.trans ht
    exact .inl rfl
  · cases (selected_putSlot hs _).symm.trans ht
    cases ha : answerOf i sl.channel with
    | accept ch r => exact .inr ⟨ch, r, rfl, rfl⟩
    | refuse r => exact .inl rfl

/-- A command leaves the turn, the schedule, the number of slots and every slot but the selected one (R15, R103). -/
theorem exec_block_frame {i : Instr} {s t : State} (h : exec i s = .next t) :
    t.sel = s.sel ∧ t.schedule = s.schedule ∧ t.slots.length = s.slots.length ∧
      ∀ k, k ≠ s.sel → t.slots[k]? = s.slots[k]? := by
  obtain ⟨sl, _, ⟨_, _, rfl⟩ | ⟨_, rfl⟩⟩ := exec_cases h
  · exact ⟨rfl, rfl, rfl, fun _ _ => rfl⟩
  · exact ⟨rfl, rfl, by simp, fun _ hk => putSlot_other _ s hk⟩

/-- An Absent slot becomes present by NEW alone (R31, R87). -/
theorem exec_absent_frame {i : Instr} {s t : State} {sl tl : Slot} (h : exec i s = .next t)
    (hs : selected s = some sl) (ht : selected t = some tl) (habsent : sl.channel = none) :
    (∃ w ri ro xo seed, i = .new w ri ro xo seed) ∨ tl.channel = none := by
  by_cases hnew : ∃ w ri ro xo seed, i = .new w ri ro xo seed
  · exact .inl hnew
  · obtain hsame | ⟨ch, r, ha, _⟩ := exec_channel_cases h hs ht
    · exact .inr (hsame.trans habsent)
    · rw [habsent, answerOf_absent fun w ri ro xo seed hi => hnew ⟨w, ri, ro, xo, seed, hi⟩] at ha
      cases ha

/-- A present channel stays present, and changes within the command's column (R31). -/
theorem exec_present_frame {i : Instr} {s t : State} {sl tl : Slot} {ch : Channel} (h : exec i s = .next t)
    (hs : selected s = some sl) (ht : selected t = some tl) (hch : sl.channel = some ch) :
    ∃ ch', tl.channel = some ch' ∧ WritesOnly i ch ch' := by
  obtain hsame | ⟨ch', r, ha, hch'⟩ := exec_channel_cases h hs ht
  · exact ⟨ch, hsame.trans hch, writesOnly_refl i ch⟩
  · exact ⟨ch', hch', writesOnly_of_accept (hch ▸ ha)⟩

end Sys2Proof.Machine
end

/-! ### The check-state machine (R28) -/

section
namespace Sys2Proof.Machine

/-- The transitions of the check-state machine for accepted commands (R28). -/
def checkStateAfter : Instr → CheckState → CheckState
  | .new _ _ _ _ _, _ => .idle
  | .enchk _ _, _ => .configured
  | _, c => c

/-- The check state of a slot that holds a channel. -/
theorem checkState_of_present {sl : Slot} {ch : Channel} (h : sl.channel = some ch) :
    checkState sl = if ch.checkEnabled then .configured else .idle := by
  simp [checkState, h]

/-- The check state of a slot that holds none. -/
theorem checkState_of_absent {sl : Slot} (h : sl.channel = none) : checkState sl = .absent := by
  simp [checkState, h]

/-- A refusal leaves the check state (R28, R95). -/
@[simp] theorem checkState_refuseAt (r : Reason) (sl : Slot) : checkState (refuseAt r sl) = checkState sl := rfl

/-- A command accepted with `check_enabled` as it was leaves the check state. -/
theorem checkState_acceptAt_same (len : Nat) {ch ch' : Channel} (r : Response) {sl : Slot}
    (hch : sl.channel = some ch) (he : ch'.checkEnabled = ch.checkEnabled) :
    checkState (acceptAt len ch' r sl) = checkState sl := by
  rw [checkState_of_present (acceptAt_channel len ch' r sl), checkState_of_present hch, he]

/-- An accepted command takes its transition of the check-state machine. Of the commands that need a present channel
all but ENCHK leave `check_enabled`, since it is not in their column of the access matrix. -/
theorem checkState_acceptAt (len : Nat) {i : Instr} {ch' : Channel} {r : Response} {sl : Slot}
    (h : answerOf i sl.channel = .accept ch' r) :
    checkState (acceptAt len ch' r sl) = checkStateAfter i (checkState sl) := by
  cases i with
  | new w ri ro xo seed =>
    cases newAnswer_accept h
    rfl
  | enchk ec el =>
    obtain ⟨ch, _, h⟩ := onPresent_accept h
    cases enchkAnswer_accept h
    rfl
  | reset _ | compute _ | trigmm | event _ =>
    obtain ⟨ch, hch, _⟩ := onPresent_accept h
    have hwrites := writesOnly_of_accept (hch ▸ h)
    simp only [WritesOnly] at hwrites
    exact checkState_acceptAt_same len r hch (by rw [hwrites])

/-- Where a slot that takes commands ends after one: marked in its old check state, or unmarked with the transition
taken, which needs an accepted command. -/
theorem settle_checkState_cases (len : Nat) (i : Instr) {sl : Slot} (hmark : sl.mark = none) :
    ((settle len (answerOf i sl.channel) sl).mark ≠ none ∧
      checkState (settle len (answerOf i sl.channel) sl) = checkState sl) ∨
    ((settle len (answerOf i sl.channel) sl).mark = none ∧
      checkState (settle len (answerOf i sl.channel) sl) = checkStateAfter i (checkState sl)) := by
  cases ha : answerOf i sl.channel with
  | accept ch' r => exact .inr ⟨hmark, checkState_acceptAt len ha⟩
  | refuse r => exact .inl ⟨by simp [settle], rfl⟩

/-- An Absent slot given a command other than NEW is marked and stays Absent (R28, R87). -/
theorem settle_absent (len : Nat) {i : Instr} {sl : Slot} (habsent : sl.channel = none)
    (hi : ∀ w ri ro xo seed, i ≠ .new w ri ro xo seed) :
    (settle len (answerOf i sl.channel) sl).mark ≠ none ∧
      checkState (settle len (answerOf i sl.channel) sl) = .absent := by
  rw [habsent, answerOf_absent hi]
  exact ⟨by simp [settle], checkState_of_absent habsent⟩

end Sys2Proof.Machine
end

/-! ### The obligations of 10_state -/

section
namespace Sys2Proof.Machine

/-- Settles O47: the block's part by what a command can do to the state, the slot's part by the channel it is accepted
with, which keeps to the access matrix. -/
theorem commandsWriteOnlyTheirFields : Obligations.CommandsWriteOnlyTheirFields := by
  intro i s t h
  obtain ⟨hsel, hsched, hlen, hother⟩ := exec_block_frame h
  refine ⟨hsel, hsched, hlen, hother, fun sl tl hs ht => ⟨exec_absent_frame h hs ht, fun ch hch => ?_⟩⟩
  obtain ⟨ch', hch', hwrites⟩ := exec_present_frame h hs ht hch
  exact ⟨ch', hch', by cases i <;> exact hwrites⟩

/-- Settles O48, by cases on whether the slot is marked after the command. -/
theorem checkStateTransitions : Obligations.CheckStateTransitions := by
  intro i s sl hready
  obtain ⟨hs, hmark⟩ := hready
  refine ⟨_, _, (exec_eq_command i s).trans (command_of_ready _ _ ⟨hs, hmark⟩), selected_putSlot hs _, ?_⟩
  obtain ⟨hm, hc⟩ | ⟨hm, hc⟩ := settle_checkState_cases i.words i hmark
  · exact ⟨fun _ => hc, fun h => absurd h hm, settle_absent i.words⟩
  · exact ⟨fun h => absurd hm h, fun _ => hc.trans (by cases i <;> rfl), settle_absent i.words⟩

end Sys2Proof.Machine
end

/-! # Proofs of the family 20_memory: the units of the data operand, and the order of different slots -/

/-! ### A unit as a number (R36, R37) -/

section
namespace Sys2Proof.Machine

/-- The word that holds the bytes `f 0 .. f (n-1)`, the first in bits 7:0. -/
def littleEndianWord (f : Nat → Byte) (n : Nat) : Word :=
  (List.range n).foldl (fun u j => u ||| ((f j).setWidth 32 <<< (8 * j))) 0#32

/-- The number whose digits to base 256 are the bytes `f 0 .. f (n-1)`, the first the least significant. -/
def littleEndianNat (f : Nat → Byte) (n : Nat) : Nat :=
  ∑ j ∈ Finset.range n, (f j).toNat * 2 ^ (8 * j)

/-- A unit is the little-endian word of the bytes from its offset (R37). -/
theorem dataUnit_eq_littleEndianWord (d : List Byte) (k : Nat) (w : Width) :
    dataUnit d k w = littleEndianWord (fun j => d.getD (unitBytes w * k + j) 0#8) (unitBytes w) := rfl

/-- One more byte goes in above the bytes before it. -/
theorem littleEndianWord_succ (f : Nat → Byte) (n : Nat) :
    littleEndianWord f (n + 1) = littleEndianWord f n ||| ((f n).setWidth 32 <<< (8 * n)) := by
  simp [littleEndianWord, List.range_succ]

/-- The number gains one digit. -/
theorem littleEndianNat_succ (f : Nat → Byte) (n : Nat) :
    littleEndianNat f (n + 1) = littleEndianNat f n + (f n).toNat * 2 ^ (8 * n) :=
  Finset.sum_range_succ _ n

/-- The number of `n` bytes has `8 * n` bits. -/
theorem littleEndianNat_lt (f : Nat → Byte) (n : Nat) : littleEndianNat f n < 2 ^ (8 * n) := by
  induction n with
  | zero => simp [littleEndianNat]
  | succ n ih =>
    have hbyte : (f n).toNat < 2 ^ 8 := (f n).isLt
    calc littleEndianNat f (n + 1)
        = littleEndianNat f n + (f n).toNat * 2 ^ (8 * n) := littleEndianNat_succ f n
      _ < 2 ^ (8 * n) + (f n).toNat * 2 ^ (8 * n) := by omega
      _ = ((f n).toNat + 1) * 2 ^ (8 * n) := by ring
      _ ≤ 2 ^ 8 * 2 ^ (8 * n) := Nat.mul_le_mul_right _ hbyte
      _ = 2 ^ (8 * (n + 1)) := by rw [← pow_add]; congr 1; omega

/-- A byte moved up to byte place `n` of a word loses no bit. -/
theorem toNat_byte_shiftLeft (b : Byte) {n : Nat} (hn : n < 4) :
    (b.setWidth 32 <<< (8 * n)).toNat = b.toNat <<< (8 * n) := by
  have hfit : b.toNat <<< (8 * n) < 2 ^ 32 := by
    calc b.toNat <<< (8 * n) = b.toNat * 2 ^ (8 * n) := Nat.shiftLeft_eq _ _
      _ < 2 ^ 8 * 2 ^ (8 * n) := Nat.mul_lt_mul_of_pos_right b.isLt (Nat.two_pow_pos _)
      _ = 2 ^ (8 + 8 * n) := (pow_add _ _ _).symm
      _ ≤ 2 ^ 32 := Nat.pow_le_pow_right (by decide) (by omega)
  rw [BitVec.toNat_shiftLeft, BitVec.toNat_setWidth_of_le (by decide), Nat.mod_eq_of_lt hfit]

/-- Up to four bytes fit a word, and since each stands above those before it, OR adds them. -/
theorem littleEndianWord_toNat (f : Nat → Byte) {n : Nat} (hn : n ≤ 4) :
    (littleEndianWord f n).toNat = littleEndianNat f n := by
  induction n with
  | zero => rfl
  | succ n ih =>
    calc (littleEndianWord f (n + 1)).toNat
        = littleEndianNat f n ||| (f n).toNat <<< (8 * n) := by
          rw [littleEndianWord_succ, BitVec.toNat_or, ih (by omega), toNat_byte_shiftLeft _ hn]
      _ = (f n).toNat <<< (8 * n) + littleEndianNat f n := by
          rw [Nat.or_comm, Nat.shiftLeft_add_eq_or_of_lt (littleEndianNat_lt f n)]
      _ = littleEndianNat f (n + 1) := by
          rw [littleEndianNat_succ, Nat.shiftLeft_eq, Nat.add_comm]

/-- A unit fits a command word (R6). -/
theorem unitBytes_le (w : Width) : unitBytes w ≤ 4 := by cases w <;> decide

end Sys2Proof.Machine
end

/-! ### The bytes after the last whole unit (R38) -/

section
namespace Sys2Proof.Machine

/-- The bytes of the whole units are bytes of the data. -/
theorem unitBytes_mul_unitCount_le (w : Width) (d : List Byte) : unitBytes w * unitCount w d ≤ d.length :=
  Nat.mul_div_le _ _

/-- The bytes of one more unit would not be. -/
theorem length_lt_unitBytes_mul (w : Width) (d : List Byte) : d.length < unitBytes w * (unitCount w d + 1) :=
  Nat.lt_mul_div_succ _ (unitBytes_pos w)

/-- A partial unit after whole ones does not count. -/
theorem unitCount_append_partial {w : Width} {d t : List Byte} (hd : d.length % unitBytes w = 0)
    (ht : t.length < unitBytes w) : unitCount w (d ++ t) = unitCount w d := by
  simp only [unitCount, List.length_append]
  rw [Nat.add_div_of_dvd_right (Nat.dvd_of_mod_eq_zero hd), Nat.div_eq_of_lt ht, Nat.add_zero]

/-- A whole unit of the data is the same unit of every longer data. -/
theorem dataUnit_append {w : Width} {d : List Byte} {k : Nat} (hk : k < unitCount w d) (t : List Byte) :
    dataUnit (d ++ t) k w = dataUnit d k w := by
  refine List.foldl_ext _ _ _ fun u j hj => ?_
  have hin : unitBytes w * k + j < d.length := by
    calc unitBytes w * k + j < unitBytes w * (k + 1) := by
          rw [Nat.mul_add_one]
          exact Nat.add_lt_add_left (List.mem_range.mp hj) _
      _ ≤ unitBytes w * unitCount w d := Nat.mul_le_mul_left _ hk
      _ ≤ d.length := unitBytes_mul_unitCount_le w d
  rw [List.getD_append _ _ _ _ hin]

/-- The divider sees the same units with a partial unit after them. -/
theorem rawBy_append_partial (g : Word) {w : Width} (p : Params) (seed : Word) {d t : List Byte}
    (hd : d.length % unitBytes w = 0) (ht : t.length < unitBytes w) :
    rawBy g w p seed (d ++ t) = rawBy g w p seed d := by
  unfold rawBy
  rw [unitCount_append_partial hd ht]
  refine List.foldl_ext _ _ _ fun r k hk => ?_
  rw [dataUnit_append (List.mem_range.mp hk)]

/-- So the checksum is the same. -/
theorem checksumOf_append_partial {ch : Channel} {d t : List Byte} (hd : d.length % unitBytes ch.w = 0)
    (ht : t.length < unitBytes ch.w) : checksumOf (d ++ t) ch = checksumOf d ch :=
  congrArg (out ch.w ch.params) (rawBy_append_partial _ _ _ hd ht)

/-- COMPUTE depends on its data through the checksum and the word count alone (R84). -/
theorem computeAnswer_congr {ch : Channel} {d d' : List Byte} (hsum : checksumOf d ch = checksumOf d' ch)
    (hcount : unitCount ch.w d = unitCount ch.w d') : computeAnswer d ch = computeAnswer d' ch := by
  simp only [computeAnswer, computedChannel, hsum, hcount]

end Sys2Proof.Machine
end

/-! ### A command and a turn as functions of the selected slot alone (R44) -/

section
namespace Sys2Proof.Machine

/-- The slot after a command is executed on it: a marked slot stays as it is (R96). -/
def slotAfterExec (i : Instr) (sl : Slot) : Slot :=
  match sl.mark with
  | some _ => sl
  | none => settle i.words (answerOf i sl.channel) sl

/-- The slot after its turn: its next command executed, or refused by the decoder, or nothing done. -/
def slotAfterTurn (sl : Slot) : Slot :=
  match fetchSlot sl with
  | .command i => slotAfterExec i sl
  | .rejected r => refuseAt r sl
  | .quiet | .noSlot => sl

/-- The state with `f` applied to its selected slot. -/
def modifySelected (f : Slot → Slot) (s : State) : State := { s with slots := s.slots.modify s.sel f }

@[simp] theorem modifySelected_slots (f : Slot → Slot) (s : State) :
    (modifySelected f s).slots = s.slots.modify s.sel f := rfl
@[simp] theorem modifySelected_sel (f : Slot → Slot) (s : State) : (modifySelected f s).sel = s.sel := rfl
@[simp] theorem modifySelected_schedule (f : Slot → Slot) (s : State) :
    (modifySelected f s).schedule = s.schedule := rfl

/-- To apply `f` to the selected slot is to put `f` of it. -/
theorem modifySelected_of_selected {s : State} {sl : Slot} (f : Slot → Slot) (h : selected s = some sl) :
    modifySelected f s = putSlot (f sl) s := by
  have h : s.slots[s.sel]? = some sl := h
  simp [modifySelected, putSlot, List.modify_eq_set_getElem?, h]

/-- Putting the selected slot where it is changes nothing. -/
theorem putSlot_self {s : State} {sl : Slot} (h : selected s = some sl) : putSlot sl s = s := by
  obtain ⟨_, rfl⟩ := List.getElem?_eq_some_iff.mp h
  simp [putSlot]

/-- A command to a slot the block has changes that slot, by the slot alone. -/
theorem exec_eq_modifySelected (i : Instr) {s : State} (h : s.sel < s.slots.length) :
    exec i s = .next (modifySelected (slotAfterExec i) s) := by
  obtain ⟨sl, hs⟩ := selected_of_lt h
  rw [exec_eq_command, modifySelected_of_selected _ hs, slotAfterExec]
  cases hm : sl.mark with
  | some m => rw [command_of_marked _ _ hs hm, putSlot_self hs]
  | none => rw [command_of_ready _ _ ⟨hs, hm⟩]

/-- The turn of a slot the block has changes that slot, by the slot alone, and passes on. -/
theorem step_eq_modifySelected {s : State} (h : s.sel < s.slots.length) :
    step s = .next (endTurn (modifySelected slotAfterTurn s)) := by
  obtain ⟨sl, hs⟩ := selected_of_lt h
  have hfetch : fetch s = fetchSlot sl := by simp [fetch, hs]
  rw [modifySelected_of_selected _ hs, slotAfterTurn, step, hfetch]
  cases hf : fetchSlot sl with
  | noSlot => exact absurd hf (fetchSlot_ne_noSlot sl)
  | quiet => simp only [putSlot_self hs]
  | rejected r => simp only [rejectCommand_of_selected r hs]
  | command i =>
    simp only [exec_eq_modifySelected i h, modifySelected_of_selected _ hs, thenEndTurn]

/-- A command to slot `k`, the turn at `k` or not before. -/
theorem exec_turnTo (i : Instr) {k : Nat} {s : State} (h : k < s.slots.length) :
    ∃ t, exec i (turnTo k s) = .next t ∧ t.slots = s.slots.modify k (slotAfterExec i) :=
  ⟨_, exec_eq_modifySelected i h, rfl⟩

/-- Two turns of slots of the block, one after the other. -/
theorem step_step_slots {s : State} {a b : Nat} (ha : a < s.slots.length) (hb : b < s.slots.length) :
    ∃ t u, step { s with sel := a, schedule := [b] } = .next t ∧ step t = .next u ∧
      u.slots = (s.slots.modify a slotAfterTurn).modify b slotAfterTurn := by
  refine ⟨_, _, step_eq_modifySelected ha, step_eq_modifySelected ?_, rfl⟩
  simpa using hb

end Sys2Proof.Machine
end

/-! ### The obligations of 20_memory -/

section
namespace Sys2Proof.Machine

/-- Settles O11: a unit is the little-endian word of its bytes, and a word of disjoint bytes is their sum. -/
theorem unitsAreLittleEndianNumbers : Obligations.UnitsAreLittleEndianNumbers := by
  refine ⟨fun w d k _ => ?_, fun w d => ⟨unitBytes_mul_unitCount_le w d, length_lt_unitBytes_mul w d⟩⟩
  rw [dataUnit_eq_littleEndianWord]
  exact littleEndianWord_toNat _ (unitBytes_le w)

/-- Settles O12: COMPUTE reads its data through the checksum and the word count, and neither sees a partial unit. -/
theorem trailingPartialUnitIgnored : Obligations.TrailingPartialUnitIgnored := by
  refine ⟨fun ch d t hd ht => ?_, fun d => by simp [unitCount, unitBytes]⟩
  have hcount := unitCount_append_partial hd ht
  exact ⟨computeAnswer_congr (checksumOf_append_partial hd ht) hcount, hcount⟩

/-- Settles O50: a command is a function of its own slot, and changes of two different slots commute. -/
theorem commandsToDifferentSlotsCommute : Obligations.CommandsToDifferentSlotsCommute := by
  intro i j s a b hab ha hb
  obtain ⟨t1, ht1, ht1s⟩ := exec_turnTo i ha
  obtain ⟨u1, hu1, hu1s⟩ := exec_turnTo j hb
  obtain ⟨t2, ht2, ht2s⟩ := exec_turnTo j (k := b) (s := t1) (by simpa [ht1s] using hb)
  obtain ⟨u2, hu2, hu2s⟩ := exec_turnTo i (k := a) (s := u1) (by simpa [hu1s] using ha)
  refine ⟨t1, t2, u1, u2, ht1, ht2, hu1, hu2, ?_⟩
  rw [ht2s, ht1s, hu2s, hu1s, List.modify_modify_ne _ _ _ hab]

/-- Settles O51: a turn is a function of its own slot, whatever the turn finds, and changes of two different slots
commute. -/
theorem stepsOfDifferentSlotsCommute : Obligations.StepsOfDifferentSlotsCommute := by
  intro s a b hab ha hb
  obtain ⟨t1, t2, ht1, ht2, hts⟩ := step_step_slots ha hb
  obtain ⟨u1, u2, hu1, hu2, hus⟩ := step_step_slots hb ha
  refine ⟨t1, t2, u1, u2, ht1, ht2, hu1, hu2, ?_⟩
  rw [hts, hus, List.modify_modify_ne _ _ _ hab]

end Sys2Proof.Machine
end

/-! # Proofs of the family 30_encoding: the decoder and the encoder, byte streams, and the assembler's strings -/

/-! ### The header word (R51 to R54) -/

section
namespace Sys2Proof

open Laws.EncodedForm

/-- The number of low bits of an opcode's header that its fields take; the bits from there up are reserved
(R53, R55 to R57, R59, R60). -/
def fieldBits : Opcode → Nat
  | .new => 9
  | .event => 5
  | .reset | .enchk | .compute | .trigmm => 4

/-- The value of `H[3:0]` that spells an opcode (R52). -/
def opcodeBits : Opcode → BitVec 4
  | .new => 1#4
  | .reset => 2#4
  | .enchk => 3#4
  | .compute => 4#4
  | .trigmm => 5#4
  | .event => 6#4

/-- A header spells an opcode exactly when its low four bits are the opcode's value (R52). -/
theorem opcodeOf_eq_some_iff {h : Word} {op : Opcode} :
    opcodeOf h = some op ↔ h.extractLsb' 0 4 = opcodeBits op := by
  unfold opcodeOf
  generalize h.extractLsb' 0 4 = v
  cases op <;> revert v <;> decide

/-- The ten reserved values of `H[3:0]` (R61). -/
theorem opcodeOf_eq_none_iff {h : Word} :
    opcodeOf h = none ↔ h.extractLsb' 0 4 = 0#4 ∨ 7 ≤ (h.extractLsb' 0 4).toNat := by
  unfold opcodeOf
  generalize h.extractLsb' 0 4 = v
  revert v
  decide

/-- The opcodes 2 to 5 are those whose headers have no field but the opcode. -/
theorem exists_opcode_of_two_le_of_le_five {v : BitVec 4} (hge : 2 ≤ v.toNat) (hle : v.toNat ≤ 5) :
    ∃ op, v = opcodeBits op ∧ fieldBits op = 4 := by
  obtain rfl | rfl | rfl | rfl : v = 2#4 ∨ v = 3#4 ∨ v = 4#4 ∨ v = 5#4 := by
    revert v
    decide
  · exact ⟨.reset, rfl, rfl⟩
  · exact ⟨.enchk, rfl, rfl⟩
  · exact ⟨.compute, rfl, rfl⟩
  · exact ⟨.trigmm, rfl, rfl⟩

/-- The reserved bits of a header are those from the end of its fields up. -/
theorem reservedMask_getLsbD (op : Opcode) {i : Nat} (hi : i < 32) :
    (reservedMask op).getLsbD i = decide (fieldBits op ≤ i) := by
  cases op <;> revert i <;> decide

/-- No reserved bit is set exactly when every bit above the fields is 0. -/
theorem and_reservedMask_eq_zero_iff {h : Word} {op : Opcode} :
    h &&& reservedMask op = 0#32 ↔ ∀ i, fieldBits op ≤ i → h.getLsbD i = false := by
  constructor
  · intro hz i hi
    have hbit : (h &&& reservedMask op).getLsbD i = false := by simp [hz]
    by_cases hlt : i < 32
    · simpa [reservedMask_getLsbD op hlt, hi] using hbit
    · exact BitVec.getLsbD_of_ge h i (by omega)
  · intro hz
    refine BitVec.eq_of_getLsbD_eq fun i hlt => ?_
    by_cases hi : fieldBits op ≤ i
    · simp [hz i hi]
    · simp [reservedMask_getLsbD op hlt, hi]

/-- The top bits of a word from bit `k` are 0 exactly when each of them is. -/
theorem extractLsb'_top_eq_zero_iff {h : Word} {k n : Nat} (hkn : k + n = 32) :
    h.extractLsb' k n = 0#n ↔ ∀ i, k ≤ i → h.getLsbD i = false := by
  constructor
  · intro hz i hi
    by_cases hlt : i < 32
    · have hbit := congrArg (BitVec.getLsbD · (i - k)) hz
      simpa [show i - k < n by omega, show k + (i - k) = i by omega] using hbit
    · exact BitVec.getLsbD_of_ge h i (by omega)
  · intro hz
    refine BitVec.eq_of_getLsbD_eq fun i hi => ?_
    simp [hz (k + i)]

/-- Two valid headers of one opcode are equal when their fields above the opcode are. -/
theorem header_eq_of_fields {h h' : Word} {op : Opcode} (ho : opcodeOf h = some op) (ho' : opcodeOf h' = some op)
    (hr : h &&& reservedMask op = 0#32) (hr' : h' &&& reservedMask op = 0#32)
    (hfields : ∀ i, 4 ≤ i → i < fieldBits op → h.getLsbD i = h'.getLsbD i) : h = h' := by
  refine BitVec.eq_of_getLsbD_eq fun i _ => ?_
  by_cases hop : i < 4
  · have hbits : h.extractLsb' 0 4 = h'.extractLsb' 0 4 :=
      (opcodeOf_eq_some_iff.mp ho).trans (opcodeOf_eq_some_iff.mp ho').symm
    simpa [hop] using congrArg (BitVec.getLsbD · i) hbits
  · by_cases hfield : i < fieldBits op
    · exact hfields i (by omega) hfield
    · rw [and_reservedMask_eq_zero_iff.mp hr i (by omega), and_reservedMask_eq_zero_iff.mp hr' i (by omega)]

/-- A width code other than 3 selects one width, and no two select the same (R54). -/
theorem widthOfCode_inj {a b : BitVec 2} {w : Width} (ha : widthOfCode a = some w) (hb : widthOfCode b = some w) :
    a = b := by
  cases w <;> revert a b <;> decide

/-- Width code 3 is the reserved one (R54). -/
theorem widthOfCode_eq_none_iff {wc : BitVec 2} : widthOfCode wc = none ↔ wc = 3#2 := by
  revert wc
  decide

/-- The fields of NEW's header (R53). -/
theorem headerOf_new_fields (w : Width) (ri ro xo : Bool) (seed : Nat) :
    widthOfCode ((headerOf (.new w ri ro xo seed)).extractLsb' 4 2) = some w ∧
      (headerOf (.new w ri ro xo seed)).getLsbD 6 = ri ∧ (headerOf (.new w ri ro xo seed)).getLsbD 7 = ro ∧
      (headerOf (.new w ri ro xo seed)).getLsbD 8 = xo := by
  simp only [headerOf]
  cases w <;> revert ri ro xo <;> decide

/-- The field of EVENT's header (R60). -/
theorem headerOf_event_field (k : EventKind) :
    (headerOf (.event k)).getLsbD 4 = decide (k = .lengthError) := by
  cases k <;> decide

/-- The encoded form of every well-formed command: its length, its opcode, and no reserved bit. -/
theorem encodedForm (i : Instr) : Statement i := by
  cases i with
  | new w ri ro xo seed => exact new w ri ro xo seed
  | reset seed => exact reset seed
  | enchk ec el => exact enchk ec el
  | compute data => exact compute data
  | trigmm => exact trigmm
  | event k => exact event k

end Sys2Proof
end

/-! ### Words and bytes (R50, R57) -/

section
namespace Sys2Proof

/-- Byte `j` of a word is its bits `8j+7 .. 8j`. -/
theorem bytesOfWord_getElem? (v : Word) {j : Nat} (hj : j < 4) :
    (bytesOfWord v)[j]? = some (v.extractLsb' (8 * j) 8) := by
  interval_cases j <;> rfl

/-- Bit `i` of a word made of four bytes is bit `i mod 8` of byte `i / 8`. -/
theorem wordOfBytes_getLsbD (b0 b1 b2 b3 : Byte) {i : Nat} (hi : i < 32) :
    (wordOfBytes b0 b1 b2 b3).getLsbD i = ([b0, b1, b2, b3].getD (i / 8) 0#8).getLsbD (i % 8) := by
  interval_cases i <;> simp [wordOfBytes]

/-- Byte `j` of a word made of four bytes. -/
theorem extractLsb'_wordOfBytes (b0 b1 b2 b3 : Byte) {j : Nat} (hj : j < 4) :
    (wordOfBytes b0 b1 b2 b3).extractLsb' (8 * j) 8 = [b0, b1, b2, b3].getD j 0#8 := by
  refine BitVec.eq_of_getLsbD_eq fun i hi => ?_
  have hbyte : (8 * j + i) / 8 = j := by omega
  have hbit : (8 * j + i) % 8 = i := by omega
  rw [BitVec.getLsbD_extractLsb', wordOfBytes_getLsbD _ _ _ _ (by omega), hbyte, hbit]
  simp [hi]

/-- The bytes of a word made of four bytes are those four. -/
@[simp] theorem bytesOfWord_wordOfBytes (b0 b1 b2 b3 : Byte) :
    bytesOfWord (wordOfBytes b0 b1 b2 b3) = [b0, b1, b2, b3] := by
  have hbyte (j : Nat) (hj : j < 4) := extractLsb'_wordOfBytes b0 b1 b2 b3 hj
  simpa [bytesOfWord] using
    And.intro (hbyte 0 (by decide)) ⟨hbyte 1 (by decide), hbyte 2 (by decide), hbyte 3 (by decide)⟩

/-- A word is made of its own bytes. -/
theorem wordOfBytes_extractLsb' (v : Word) :
    wordOfBytes (v.extractLsb' 0 8) (v.extractLsb' 8 8) (v.extractLsb' 16 8) (v.extractLsb' 24 8) = v := by
  refine BitVec.eq_of_getLsbD_eq fun i hi => ?_
  have hbyte := bytesOfWord_getElem? v (j := i / 8) (by omega)
  rw [wordOfBytes_getLsbD _ _ _ _ hi, ← bytesOfWord, List.getD_eq_getElem?_getD, hbyte]
  simp [Nat.mod_lt, Nat.div_add_mod]

@[simp] theorem bytesOfWords_nil : bytesOfWords [] = [] := rfl

@[simp] theorem bytesOfWords_cons (v : Word) (ws : List Word) :
    bytesOfWords (v :: ws) = bytesOfWord v ++ bytesOfWords ws := rfl

@[simp] theorem bytesOfWord_length (v : Word) : (bytesOfWord v).length = 4 := rfl

/-- Four bytes to each word. -/
@[simp] theorem bytesOfWords_length (ws : List Word) : (bytesOfWords ws).length = 4 * ws.length := by
  induction ws with
  | nil => rfl
  | cons v ws ih => simp [ih]; omega

/-- Byte `4k+j` of a byte stream is byte `j` of word `k`. -/
theorem bytesOfWords_getElem? {ws : List Word} {k j : Nat} (hk : k < ws.length) (hj : j < 4) :
    (bytesOfWords ws)[4 * k + j]? = some ((ws.getD k 0#32).extractLsb' (8 * j) 8) := by
  induction ws generalizing k with
  | nil => simp at hk
  | cons v ws ih =>
    rw [bytesOfWords_cons]
    cases k with
    | zero =>
      rw [Nat.mul_zero, Nat.zero_add, List.getElem?_append_left (by simpa using hj)]
      exact bytesOfWord_getElem? v hj
    | succ k =>
      rw [List.getElem?_append_right (by simp; omega), bytesOfWord_length,
        show 4 * (k + 1) + j - 4 = 4 * k + j by omega]
      exact ih (by simpa using hk)

/-- The words read from the bytes of words are those words (R50). -/
theorem wordsOfBytes_bytesOfWords (ws : List Word) : wordsOfBytes (bytesOfWords ws) = ws := by
  induction ws with
  | nil => rfl
  | cons v ws ih =>
    calc wordsOfBytes (bytesOfWords (v :: ws))
        = wordOfBytes (v.extractLsb' 0 8) (v.extractLsb' 8 8) (v.extractLsb' 16 8) (v.extractLsb' 24 8) ::
            wordsOfBytes (bytesOfWords ws) := rfl
      _ = v :: ws := by rw [wordOfBytes_extractLsb', ih]

/-- Packed data are the first bytes of their words; padding follows them (R57, R58). -/
theorem bytesOfWords_packBytes_take (d : List Byte) : (bytesOfWords (packBytes d)).take d.length = d := by
  fun_induction packBytes d with
  | case1 => rfl
  | case2 | case3 | case4 => simp
  | case5 a b c d rest ih => simp [ih]

/-- `ceil(n/4)` words hold `n` bytes (R57). -/
theorem le_four_mul_dataWords (n : Nat) : n ≤ 4 * dataWords n := by
  unfold dataWords
  omega

/-- As many data words as carry `n` bytes hold `n` bytes of data (R57). -/
theorem bytesOfWords_take_length {n : Nat} {data : List Word} (h : data.length = dataWords n) :
    ((bytesOfWords data).take n).length = n := by
  have := le_four_mul_dataWords n
  simp [h, this]

end Sys2Proof
end

/-! ### What each format reads (R53 to R60) -/

section
namespace Sys2Proof

open Laws.EncodedForm

/-- NEW reads a width code other than 3 and one operand word. -/
theorem decodeNew_eq_command_iff {h : Word} {ops rest : List Word} {i : Instr} :
    decodeNew h ops = .command i rest ↔
      ∃ w seed, widthOfCode (h.extractLsb' 4 2) = some w ∧ ops = seed :: rest ∧
        i = .new w (h.getLsbD 6) (h.getLsbD 7) (h.getLsbD 8) seed.toNat := by
  unfold decodeNew
  cases hw : widthOfCode (h.extractLsb' 4 2) with
  | none => simp
  | some w => cases ops <;> simp [eq_comm, and_comm]

/-- RESET reads one operand word. -/
theorem decodeReset_eq_command_iff {ops rest : List Word} {i : Instr} :
    decodeReset ops = .command i rest ↔ ∃ seed, ops = seed :: rest ∧ i = .reset seed.toNat := by
  cases ops <;> simp [decodeReset, eq_comm, and_comm]

/-- ENCHK reads two operand words. -/
theorem decodeEnchk_eq_command_iff {ops rest : List Word} {i : Instr} :
    decodeEnchk ops = .command i rest ↔
      ∃ ec el, ops = ec :: el :: rest ∧ i = .enchk ec.toNat el.toNat := by
  rcases ops with _ | ⟨ec, _ | ⟨el, ops⟩⟩ <;> simp [decodeEnchk, eq_comm, and_comm]

/-- COMPUTE reads `N` and `ceil(N/4)` data words, of whose bytes the first `N` are the data. -/
theorem decodeCompute_eq_command_iff {ops rest : List Word} {i : Instr} :
    decodeCompute ops = .command i rest ↔
      ∃ n data, data.length = dataWords n.toNat ∧ ops = n :: (data ++ rest) ∧
        i = .compute ((bytesOfWords data).take n.toNat) := by
  constructor
  · intro h
    cases ops with
    | nil => cases h
    | cons n ws =>
      by_cases hlen : ws.length < dataWords n.toNat
      · simp [decodeCompute, hlen] at h
      · obtain ⟨rfl, rfl⟩ : Instr.compute _ = i ∧ _ = rest := by simpa [decodeCompute, hlen] using h
        exact ⟨n, ws.take (dataWords n.toNat), by simp; omega, by simp, rfl⟩
  · rintro ⟨n, data, hlen, rfl, rfl⟩
    simp [decodeCompute, ← hlen]

/-- A format that refuses finds the words too few, or is NEW's with width code 3. -/
theorem decodeFormat_reject_cases {op : Opcode} {h : Word} {ops : List Word} {r : Reason}
    (hd : decodeFormat op h ops = .reject r) :
    r = .truncated ∨ (r = .reservedWidth ∧ op = .new ∧ widthOfCode (h.extractLsb' 4 2) = none) := by
  cases op with
  | new =>
    cases hw : widthOfCode (h.extractLsb' 4 2) with
    | none => exact .inr ⟨by simpa [decodeFormat, decodeNew, hw, eq_comm] using hd, rfl, rfl⟩
    | some w => cases ops <;> simp [decodeFormat, decodeNew, hw] at hd; exact .inl hd.symm
  | reset => cases ops <;> cases hd; exact .inl rfl
  | enchk => rcases ops with _ | ⟨ec, _ | ⟨el, ops⟩⟩ <;> cases hd <;> exact .inl rfl
  | compute =>
    cases ops with
    | nil => simpa [decodeFormat, decodeCompute, eq_comm] using hd
    | cons n ws =>
      by_cases hlen : ws.length < dataWords n.toNat
      · simpa [decodeFormat, decodeCompute, hlen, eq_comm] using hd
      · simp [decodeFormat, decodeCompute, hlen] at hd
  | trigmm | event => cases hd

/-- Words after those a format reads are left over (R63). -/
theorem decodeFormat_append_of_command {op : Opcode} {h : Word} {ops rest : List Word} {i : Instr}
    (hd : decodeFormat op h ops = .command i rest) (more : List Word) :
    decodeFormat op h (ops ++ more) = .command i (rest ++ more) := by
  cases op with
  | new =>
    obtain ⟨w, seed, hw, rfl, rfl⟩ := decodeNew_eq_command_iff.mp hd
    exact decodeNew_eq_command_iff.mpr ⟨w, seed, hw, rfl, rfl⟩
  | reset =>
    obtain ⟨seed, rfl, rfl⟩ := decodeReset_eq_command_iff.mp hd
    rfl
  | enchk =>
    obtain ⟨ec, el, rfl, rfl⟩ := decodeEnchk_eq_command_iff.mp hd
    rfl
  | compute =>
    obtain ⟨n, data, hlen, rfl, rfl⟩ := decodeCompute_eq_command_iff.mp hd
    rw [List.cons_append, List.append_assoc]
    exact decodeCompute_eq_command_iff.mpr ⟨n, data, hlen, rfl, rfl⟩
  | trigmm | event =>
    cases hd
    rfl

/-- A command that is read is well-formed, and its opcode is that of its format. -/
theorem decodeFormat_wf {op : Opcode} {h : Word} {ops rest : List Word} {i : Instr}
    (hd : decodeFormat op h ops = .command i rest) : i.wf = true ∧ opcodeFor i = op := by
  cases op with
  | new =>
    obtain ⟨w, seed, _, _, rfl⟩ := decodeNew_eq_command_iff.mp hd
    exact ⟨decide_eq_true seed.isLt, rfl⟩
  | reset =>
    obtain ⟨seed, _, rfl⟩ := decodeReset_eq_command_iff.mp hd
    exact ⟨decide_eq_true seed.isLt, rfl⟩
  | enchk =>
    obtain ⟨ec, el, _, rfl⟩ := decodeEnchk_eq_command_iff.mp hd
    exact ⟨by simp [Instr.wf, ec.isLt, el.isLt], rfl⟩
  | compute =>
    obtain ⟨n, data, hlen, _, rfl⟩ := decodeCompute_eq_command_iff.mp hd
    refine ⟨decide_eq_true ?_, rfl⟩
    rw [bytesOfWords_take_length hlen]
    exact n.isLt
  | trigmm | event =>
    cases hd
    exact ⟨rfl, rfl⟩

/-- The fields of a header that is read are those of the command's own header. -/
theorem decodeFormat_fields {op : Opcode} {h : Word} {ops rest : List Word} {i : Instr}
    (hd : decodeFormat op h ops = .command i rest) :
    ∀ j, 4 ≤ j → j < fieldBits op → h.getLsbD j = (headerOf i).getLsbD j := by
  intro j hge hlt
  cases op with
  | new =>
    obtain ⟨w, seed, hw, _, rfl⟩ := decodeNew_eq_command_iff.mp hd
    obtain ⟨hw', hri, hro, hxo⟩ :=
      headerOf_new_fields w (h.getLsbD 6) (h.getLsbD 7) (h.getLsbD 8) seed.toNat
    have hcode := widthOfCode_inj hw hw'
    have hlt : j < 9 := hlt
    interval_cases j
    · simpa using congrArg (BitVec.getLsbD · 0) hcode
    · simpa using congrArg (BitVec.getLsbD · 1) hcode
    · exact hri.symm
    · exact hro.symm
    · exact hxo.symm
  | event =>
    cases hd
    obtain rfl : j = 4 := Nat.le_antisymm (Nat.le_of_lt_succ hlt) hge
    rw [headerOf_event_field]
    cases h.getLsbD 4 <;> rfl
  | reset | enchk | compute | trigmm => exact absurd hge (Nat.not_le.mpr hlt)

/-- The operand words of every command but COMPUTE are the ones the encoder writes. -/
theorem decodeFormat_operands {op : Opcode} {h : Word} {ops rest : List Word} {i : Instr}
    (hd : decodeFormat op h ops = .command i rest) (hi : ∀ d, i ≠ .compute d) : ops = operandsOf i ++ rest := by
  cases op with
  | new =>
    obtain ⟨w, seed, _, rfl, rfl⟩ := decodeNew_eq_command_iff.mp hd
    simp [operandsOf]
  | reset =>
    obtain ⟨seed, rfl, rfl⟩ := decodeReset_eq_command_iff.mp hd
    simp [operandsOf]
  | enchk =>
    obtain ⟨ec, el, rfl, rfl⟩ := decodeEnchk_eq_command_iff.mp hd
    simp [operandsOf]
  | compute =>
    obtain ⟨n, data, _, _, rfl⟩ := decodeCompute_eq_command_iff.mp hd
    exact absurd rfl (hi _)
  | trigmm | event =>
    cases hd
    rfl

/-- COMPUTE's operand words are `N` and data words whose first `N` bytes are the data; only their padding is free
(R58). -/
theorem decodeFormat_compute_operands {op : Opcode} {h : Word} {ops rest : List Word} {d : List Byte}
    (hd : decodeFormat op h ops = .command (.compute d) rest) :
    ∃ data : List Word, data.length = dataWords d.length ∧
      ops = BitVec.ofNat 32 d.length :: (data ++ rest) ∧ d = (bytesOfWords data).take d.length := by
  obtain rfl : Opcode.compute = op := (decodeFormat_wf hd).2
  obtain ⟨n, data, hlen, rfl, hi⟩ := decodeCompute_eq_command_iff.mp hd
  obtain rfl := Instr.compute.inj hi
  have hd := bytesOfWords_take_length hlen
  exact ⟨data, by rw [hd, hlen], by simp [hd], by rw [hd]⟩

end Sys2Proof
end

/-! ### The decoder on whole streams (R61 to R64) -/

section
namespace Sys2Proof

open Laws.EncodedForm

/-- Refusals of the opcode are the decoder's first check alone (R61). -/
theorem decode_eq_reservedOpcode_iff {h : Word} {ops : List Word} :
    decode (h :: ops) = .reject .reservedOpcode ↔ opcodeOf h = none := by
  constructor
  · intro hd
    by_contra hne
    obtain ⟨op, ho⟩ := Option.ne_none_iff_exists'.mp hne
    by_cases hr : h &&& reservedMask op = 0#32
    · rw [decode_of_header ho hr] at hd
      obtain hr | ⟨hr, _⟩ := decodeFormat_reject_cases hd <;> cases hr
    · rw [decode_of_reserved_bits ho hr] at hd
      cases hd
  · exact fun ho => decode_of_reserved_opcode ho ops

/-- A bit set above the fields of a valid opcode's header is refused (R62). -/
theorem decode_of_reserved_field {h : Word} {op : Opcode} {n : Nat} (hn : fieldBits op + n = 32)
    (ho : h.extractLsb' 0 4 = opcodeBits op) (hset : h.extractLsb' (fieldBits op) n ≠ 0#n) (ops : List Word) :
    decode (h :: ops) = .reject .reservedBits :=
  decode_of_reserved_bits (opcodeOf_eq_some_iff.mpr ho)
    (fun hz => hset ((extractLsb'_top_eq_zero_iff hn).mpr (and_reservedMask_eq_zero_iff.mp hz))) ops

/-- With none set the header goes to its opcode's format. -/
theorem decode_of_clear_field {h : Word} {op : Opcode} {n : Nat} (hn : fieldBits op + n = 32)
    (ho : h.extractLsb' 0 4 = opcodeBits op) (hclear : h.extractLsb' (fieldBits op) n = 0#n) (ops : List Word) :
    decode (h :: ops) = decodeFormat op h ops :=
  decode_of_header (opcodeOf_eq_some_iff.mpr ho)
    (and_reservedMask_eq_zero_iff.mpr ((extractLsb'_top_eq_zero_iff hn).mp hclear)) ops

/-- Words after a complete command do not change it (R63). -/
theorem decode_append_of_command {ws rest : List Word} {i : Instr} (hd : decode ws = .command i rest)
    (more : List Word) : decode (ws ++ more) = .command i (rest ++ more) := by
  obtain ⟨h, ops, op, rfl, ho, hr, hf⟩ := decode_command_cases hd
  rw [List.cons_append, decode_of_header ho hr]
  exact decodeFormat_append_of_command hf more

/-- A refusal other than TRUNCATED is of the header, so words after it do not change it either (R63). -/
theorem decode_append_of_reject {ws : List Word} {r : Reason} (hd : decode ws = .reject r)
    (hr : r ≠ .truncated) (more : List Word) : decode (ws ++ more) = .reject r := by
  cases ws with
  | nil =>
    cases hd
    exact absurd rfl hr
  | cons h ops =>
    rw [List.cons_append]
    cases ho : opcodeOf h with
    | none => rwa [decode_of_reserved_opcode ho] at hd ⊢
    | some op =>
      by_cases hb : h &&& reservedMask op = 0#32
      · rw [decode_of_header ho hb] at hd ⊢
        obtain h | ⟨rfl, rfl, hw⟩ := decodeFormat_reject_cases hd
        · exact absurd h hr
        · simp [decodeFormat, decodeNew, hw]
      · rwa [decode_of_reserved_bits ho hb] at hd ⊢

/-- The format of a well-formed command reads its operand words back. -/
theorem decodeFormat_operandsOf {i : Instr} (hwf : i.wf = true) (rest : List Word) :
    decodeFormat (opcodeFor i) (headerOf i) (operandsOf i ++ rest) = .command i rest := by
  cases i with
  | new w ri ro xo seed =>
    obtain ⟨hw, hri, hro, hxo⟩ := headerOf_new_fields w ri ro xo seed
    refine decodeNew_eq_command_iff.mpr ⟨w, _, hw, rfl, ?_⟩
    rw [hri, hro, hxo, BitVec.toNat_ofNat, Nat.mod_eq_of_lt (of_decide_eq_true hwf)]
  | reset seed =>
    refine decodeReset_eq_command_iff.mpr ⟨_, rfl, ?_⟩
    rw [BitVec.toNat_ofNat, Nat.mod_eq_of_lt (of_decide_eq_true hwf)]
  | enchk ec el =>
    obtain ⟨hec, hel⟩ : ec < 2 ^ 32 ∧ el < 2 ^ 32 := by simpa [Instr.wf] using hwf
    refine decodeEnchk_eq_command_iff.mpr ⟨_, _, rfl, ?_⟩
    rw [BitVec.toNat_ofNat, BitVec.toNat_ofNat, Nat.mod_eq_of_lt hec, Nat.mod_eq_of_lt hel]
  | compute data =>
    have hn : (BitVec.ofNat 32 data.length).toNat = data.length := by
      rw [BitVec.toNat_ofNat, Nat.mod_eq_of_lt (of_decide_eq_true hwf)]
    refine decodeCompute_eq_command_iff.mpr ⟨_, packBytes data, ?_, rfl, ?_⟩
    · rw [hn, packBytes_length]
    · rw [hn, bytesOfWords_packBytes_take]
  | trigmm => rfl
  | event k => cases k <;> rfl

/-- Decoding the words of a well-formed command gives it back. -/
theorem decode_encode_append {i : Instr} (hwf : i.wf = true) (rest : List Word) :
    decode (encode i ++ rest) = .command i rest := by
  obtain ⟨_, ho, hr⟩ := encodedForm i hwf
  rw [encode, List.cons_append, decode_of_header ho hr]
  exact decodeFormat_operandsOf hwf rest

/-- A proper beginning of the words of a well-formed command is TRUNCATED: a command read from it, or another
refusal, would be read from the whole words too. -/
theorem decode_encode_take {i : Instr} {n : Nat} (hwf : i.wf = true) (hn : n < i.words) :
    decode ((encode i).take n) = .reject .truncated := by
  have hwhole : decode ((encode i).take n ++ (encode i).drop n) = .command i [] := by
    simpa using decode_encode_append hwf []
  cases hd : decode ((encode i).take n) with
  | command j rest =>
    rw [decode_append_of_command hd] at hwhole
    obtain ⟨_, hrest⟩ := Decoded.command.inj hwhole
    obtain ⟨hlen, _⟩ := encodedForm i hwf
    have hshort : (encode i).length ≤ n := List.drop_eq_nil_iff.mp (List.append_eq_nil_iff.mp hrest).2
    omega
  | reject r =>
    by_contra hr
    rw [decode_append_of_reject hd (by simpa using hr)] at hwhole
    cases hwhole

/-- The header of a command that is read is the command's own. -/
theorem decode_command_header {h : Word} {ops rest : List Word} {i : Instr}
    (hd : decode (h :: ops) = .command i rest) :
    i.wf = true ∧ h = headerOf i ∧ decodeFormat (opcodeFor i) h ops = .command i rest := by
  obtain ⟨_, _, op, ⟨⟩, ho, hr, hf⟩ := decode_command_cases hd
  obtain ⟨hwf, rfl⟩ := decodeFormat_wf hf
  obtain ⟨_, ho', hr'⟩ := encodedForm i hwf
  exact ⟨hwf, header_eq_of_fields ho ho' hr hr' (decodeFormat_fields hf), hf⟩

/-- A command that is read takes its own number of words from the beginning of the stream (R63). -/
theorem decode_command_split {ws rest : List Word} {i : Instr} (hd : decode ws = .command i rest) :
    ∃ own, ws = own ++ rest ∧ own.length = i.words := by
  obtain ⟨h, ops, _, rfl, _⟩ := decode_command_cases hd
  obtain ⟨hwf, rfl, hf⟩ := decode_command_header hd
  by_cases hc : ∃ d, i = .compute d
  · obtain ⟨d, rfl⟩ := hc
    obtain ⟨data, hlen, rfl, _⟩ := decodeFormat_compute_operands hf
    exact ⟨headerOf (.compute d) :: BitVec.ofNat 32 d.length :: data, rfl, by simp [Instr.words, hlen]; omega⟩
  · obtain ⟨hlen, _⟩ := encodedForm i hwf
    exact ⟨encode i, by rw [decodeFormat_operands hf fun d hd => hc ⟨d, hd⟩]; rfl, hlen⟩

/-- COMPUTE with its padding as the stream has it reads the first `N` bytes of its data words (R57, R58). -/
theorem decode_compute {n : Word} {data : List Word} (hlen : data.length = dataWords n.toNat) (rest : List Word) :
    decode (4#32 :: n :: (data ++ rest)) = .command (.compute ((bytesOfWords data).take n.toNat)) rest := by
  rw [decode_of_header (op := .compute) (by decide) (by decide)]
  exact decodeCompute_eq_command_iff.mpr ⟨n, data, hlen, rfl, rfl⟩

/-- Byte `i` of the data that `ceil(n/4)` words carry. -/
theorem bytesOfWords_take_getElem? {n i : Nat} {data : List Word} (hlen : data.length = dataWords n) (hi : i < n) :
    ((bytesOfWords data).take n)[i]? = some ((data.getD (i / 4) 0#32).extractLsb' (8 * (i % 4)) 8) := by
  have hword : i / 4 < data.length := by
    rw [hlen, dataWords]
    omega
  rw [List.getElem?_take_of_lt hi, ← bytesOfWords_getElem? hword (Nat.mod_lt i (by decide)), Nat.div_add_mod]

end Sys2Proof
end

/-! ### Assembling a string operand (R66) -/

section
namespace Sys2Proof.Machine

/-- Blanks before a text are dropped. -/
theorem trimBlanks_cons_of_blank {c : Char} (hc : isBlank c = true) (cs : List Char) :
    trimBlanks (c :: cs) = trimBlanks cs := by
  simp [trimBlanks, hc]

/-- A text with no blank at either end stays as it is. -/
theorem trimBlanks_of_ends {a b : Char} (ha : isBlank a = false) (hb : isBlank b = false) (cs : List Char) :
    trimBlanks (a :: (cs ++ [b])) = a :: (cs ++ [b]) := by
  simp [trimBlanks, ha, hb]

/-- The bytes of a text of ASCII characters without a double quote are its characters' codes, no more (R66). -/
theorem asciiBytes_of_ascii {text : List Char} (h : ∀ c ∈ text, c.toNat < 128 ∧ c ≠ '"') :
    asciiBytes text = some (text.map fun c => BitVec.ofNat 8 c.toNat) := by
  induction text with
  | nil => rfl
  | cons c cs ih =>
    obtain ⟨hc, hcs⟩ := List.forall_mem_cons.mp h
    have ih := ih hcs
    unfold asciiBytes at ih ⊢
    simp [hc, ih]

/-- A text in double quotes is the data operand of its bytes (R65). -/
theorem dataOperand_quoted (text : List Char) : dataOperand ('"' :: (text ++ ['"'])) = asciiBytes text := by
  cases text with
  | nil => rfl
  | cons c cs =>
    have hlast : ('"' :: c :: (cs ++ ['"'])).getLast? = some '"' :=
      List.getLast?_concat (l := '"' :: c :: cs)
    calc dataOperand ('"' :: c :: (cs ++ ['"']))
        = asciiBytes (c :: (cs ++ ['"'])).dropLast := by unfold dataOperand; rw [hlast]; rfl
      _ = asciiBytes (c :: cs) := by rw [← List.cons_append, List.dropLast_concat]

/-- A name with no blank in it, then a blank and operands: the two parts of a trimmed line (R65). -/
theorem takeWhile_dropWhile_of_name {name : List Char} (hname : ∀ c ∈ name, isBlank c = false) (args : List Char) :
    (name ++ ' ' :: args).takeWhile (fun c => !isBlank c) = name ∧
      (name ++ ' ' :: args).dropWhile (fun c => !isBlank c) = ' ' :: args := by
  have hkeep : ∀ c ∈ name, (!isBlank c) = true := fun c hc => by simp [hname c hc]
  rw [List.takeWhile_append_of_pos hkeep, List.dropWhile_append_of_pos hkeep]
  exact ⟨by simp [isBlank], rfl⟩

/-- The line COMPUTE with a quoted text has that text as its data operand. -/
theorem assembleLine_compute_quoted (text : List Char) :
    assembleLine ("COMPUTE \"".toList ++ text ++ ['"']) = (asciiBytes text).map Instr.compute := by
  have hbody : trimBlanks ("COMPUTE \"".toList ++ text ++ ['"']) =
      "COMPUTE".toList ++ ' ' :: '"' :: (text ++ ['"']) :=
    trimBlanks_of_ends (by decide) (by decide) ("OMPUTE \"".toList ++ text)
  have hargs : trimBlanks (' ' :: '"' :: (text ++ ['"'])) = '"' :: (text ++ ['"']) :=
    (trimBlanks_cons_of_blank (by decide) _).trans (trimBlanks_of_ends (by decide) (by decide) text)
  obtain ⟨hname, hrest⟩ :=
    takeWhile_dropWhile_of_name (name := "COMPUTE".toList) (by simp [isBlank]) ('"' :: (text ++ ['"']))
  have hmnemonic : mnemonicOf "COMPUTE".toList = some .compute := by decide
  simp only [assembleLine, hbody, hname, hrest, hargs, hmnemonic, dataOperand_quoted]

end Sys2Proof.Machine
end

/-! ### What a turn finds -/

section
namespace Sys2Proof.Machine

/-- A slot that takes commands and whose stream has words finds what the decoder reads of them. -/
theorem fetch_of_stream {s : State} {sl : Slot} (h : Ready s sl) (hne : sl.stream ≠ []) :
    fetch s = fetchedOf (decode sl.stream) := by
  obtain ⟨hs, hmark⟩ := h
  obtain ⟨w, ws, hstream⟩ := List.exists_cons_of_ne_nil hne
  simp [fetch, hs, fetchSlot, hmark, hstream]

/-- A slot that takes commands and whose stream is empty finds nothing to execute (R64, R116). -/
theorem fetch_of_empty_stream {s : State} {sl : Slot} (h : Ready s sl) (hempty : sl.stream = []) :
    fetch s = .quiet := by
  obtain ⟨hs, hmark⟩ := h
  simp [fetch, hs, fetchSlot, hmark, hempty]

/-- The turn of a slot that takes commands executes the command its stream spells, and passes (R48). -/
theorem step_of_decoded {s : State} {sl : Slot} {i : Instr} {rest : List Word} (h : Ready s sl)
    (hne : sl.stream ≠ []) (hd : decode sl.stream = .command i rest) : step s = thenEndTurn (exec i s) := by
  simp only [step, fetch_of_stream h hne, hd, fetchedOf]

/-- The slot after a command it takes: accepted with one response, or marked and nothing else (R49, R96). -/
theorem settle_cases (len : Nat) (a : Answer) {sl : Slot} (hmark : sl.mark = none) :
    ((settle len a sl).mark = none ∧ (settle len a sl).position = sl.position + 1 ∧
        (∃ r, (settle len a sl).responses = sl.responses ++ [r]) ∧
        (settle len a sl).stream = sl.stream.drop len ∧ (settle len a sl).channel ≠ none) ∨
      ∃ r, settle len a sl = { sl with mark := some { reason := r, position := sl.position } } := by
  cases a with
  | accept ch r => exact .inl ⟨hmark, rfl, ⟨r, rfl⟩, rfl, by simp [settle]⟩
  | refuse r => exact .inr ⟨r, rfl⟩

end Sys2Proof.Machine
end

/-! ### The obligations of 30_encoding -/

section
namespace Sys2Proof.Machine

/-- Settles O18: the encoded header is valid, and the format of its opcode reads the operand words back. -/
theorem decodeOfEncodeIsTheCommand : Obligations.DecodeOfEncodeIsTheCommand :=
  fun _ rest hwf => decode_encode_append hwf rest

/-- Settles O19: a header that is read is the command's own, and the format fixes the operand words but for
COMPUTE's padding. -/
theorem decodedCommandMatchesItsWords : Obligations.DecodedCommandMatchesItsWords := by
  intro ws rest i hd
  obtain ⟨own, hown, hlen⟩ := decode_command_split hd
  obtain ⟨h, ops, _, rfl, _⟩ := decode_command_cases hd
  obtain ⟨hwf, rfl, hf⟩ := decode_command_header hd
  refine ⟨hwf, by simp [hown, ← hlen], by simp [hown, ← hlen], fun hi => ?_, ?_⟩
  · rw [decodeFormat_operands hf hi]
    rfl
  · rintro d rfl
    obtain ⟨data, hdata, rfl, hbytes⟩ := decodeFormat_compute_operands hf
    exact ⟨data, hdata, rfl, hbytes⟩

/-- Settles O20: COMPUTE's data are the first `N` bytes of its data words, whatever bytes follow them. -/
theorem computeDataBytes : Obligations.ComputeDataBytes :=
  fun _ _ rest hlen => ⟨_, decode_compute hlen rest, bytesOfWords_take_length hlen,
    fun _ hi => bytesOfWords_take_getElem? hlen hi⟩

/-- Settles O21: the opcode is the first check, and no later one answers this reason. -/
theorem reservedOpcodesRefused : Obligations.ReservedOpcodesRefused :=
  fun _ _ => decode_eq_reservedOpcode_iff.trans opcodeOf_eq_none_iff

/-- Settles O22, clause by clause in the order of R63's checks. -/
theorem reservedBitsAndWidthRefused : Obligations.ReservedBitsAndWidthRefused := by
  refine ⟨fun h ops hop hset => ?_, fun h ops hge hle hset => ?_, fun h ops hop hset => ?_,
    fun h ops hop hclear hwc => ?_, fun h seed rest hop hclear hwc => ?_, fun _ _ => rfl, fun _ _ _ => rfl⟩
  · exact decode_of_reserved_field (op := .new) rfl hop hset ops
  · obtain ⟨op, hop, hfield⟩ := exists_opcode_of_two_le_of_le_five hge hle
    rw [← hfield] at hset
    exact decode_of_reserved_field (by rw [hfield]) hop hset ops
  · exact decode_of_reserved_field (op := .event) rfl hop hset ops
  · rw [decode_of_clear_field (op := .new) rfl hop hclear]
    simp [decodeFormat, decodeNew, widthOfCode_eq_none_iff.mpr hwc]
  · obtain ⟨w, hw⟩ := Option.ne_none_iff_exists'.mp (mt widthOfCode_eq_none_iff.mp hwc)
    refine ⟨w, h.getLsbD 6, h.getLsbD 7, h.getLsbD 8, ?_⟩
    rw [decode_of_clear_field (op := .new) rfl hop hclear]
    exact decodeNew_eq_command_iff.mpr ⟨w, seed, hw, rfl, rfl⟩

/-- Settles O23: words that follow change neither a command that is read nor a refusal other than TRUNCATED. -/
theorem truncatedStreamsRefused : Obligations.TruncatedStreamsRefused := by
  refine ⟨fun i n hwf _ hn => decode_encode_take hwf hn, fun s sl hready hempty => ⟨endTurn s, ?_, rfl⟩⟩
  simp only [step, fetch_of_empty_stream hready hempty]

/-- Settles O24, by what each format reads. -/
theorem laterWordsDoNotChangeACommand : Obligations.LaterWordsDoNotChangeACommand :=
  fun _ _ more _ hd => decode_append_of_command hd more

/-- Settles O26, by induction on the words. -/
theorem wordsSurviveTheByteStream : Obligations.WordsSurviveTheByteStream :=
  ⟨fun i => ⟨headerOf i, operandsOf i, rfl⟩, wordsOfBytes_bytesOfWords,
    fun _ _ _ hk hj => bytesOfWords_getElem? hk hj⟩

/-- Settles O28: the quotes bound the text, and each of its characters gives one byte. -/
theorem stringOperandHasNoTerminator : Obligations.StringOperandHasNoTerminator := by
  intro text htext
  rw [assembleLine_compute_quoted, asciiBytes_of_ascii htext]
  rfl

/-- Settles O45, by cases on whether the slot's channel accepts the command. -/
theorem oneResponsePerAcceptedCommand : Obligations.OneResponsePerAcceptedCommand := by
  intro i s sl hready
  obtain ⟨hs, hmark⟩ := hready
  exact ⟨_, _, (exec_eq_command i s).trans (command_of_ready _ _ ⟨hs, hmark⟩), selected_putSlot hs _,
    settle_cases i.words (answerOf i sl.channel) hmark⟩

/-- Settles O25, by running the decoder. -/
theorem wordsOfTheFormatsDecode : Obligations.WordsOfTheFormatsDecode := by
  unfold Obligations.WordsOfTheFormatsDecode
  decide

/-- Settles O27, by running the assembler. -/
theorem assemblerLinesSpellCommands : Obligations.AssemblerLinesSpellCommands := by
  unfold Obligations.AssemblerLinesSpellCommands
  decide

/-- Settles O39: a turn executes what its slot's stream decodes to; without the slot it is the fault. -/
theorem stepRunsTheDecodedCommand : Obligations.StepRunsTheDecodedCommand := by
  refine ⟨fun s sl i rest hready hne hd => ?_, fun s hs => by simp only [step, fetch, hs]⟩
  rw [step_of_decoded hready hne hd]
  cases exec i s <;> rfl

end Sys2Proof.Machine
end

/-! # Proofs of the family 40_engine: bit reflection, the divider as division over GF(2), and the Engine's laws -/

/-! ### Bit reflection (R67, R68) -/

section
namespace Sys2Proof.Machine

/-- REFLECT after its first `k` bits: what the loop of R67 has built when it has read bits `0 .. k-1` of `v`. -/
def reflectFirst (v : Word) (n k : Nat) : Word :=
  (List.range k).foldl (fun r i => if v.getLsbD i then r ||| (1#32 <<< (n - 1 - i)) else r) 0#32

theorem reflect_eq_reflectFirst (v : Word) (n : Nat) : reflect v n = reflectFirst v n n := rfl

theorem reflectFirst_succ (v : Word) (n k : Nat) :
    reflectFirst v n (k + 1) =
      if v.getLsbD k then reflectFirst v n k ||| (1#32 <<< (n - 1 - k)) else reflectFirst v n k := by
  simp [reflectFirst, List.range_succ]

/-- A word with the one bit `m`. -/
theorem one_shiftLeft_getLsbD {m : Nat} (hm : m < 32) (i : Nat) :
    (1#32 <<< m).getLsbD i = decide (i = m) := by
  rw [← BitVec.twoPow_eq, BitVec.getLsbD_twoPow]
  by_cases h : i = m
  · simp [h, hm]
  · simp [h, Ne.symm h]

/-- The loop has moved the bits it has read, and no others. -/
theorem reflectFirst_getLsbD (v : Word) {n k : Nat} (hn : n ≤ 32) (hk : k ≤ n) (i : Nat) :
    (reflectFirst v n k).getLsbD i = (decide (i < n) && decide (n - 1 - i < k) && v.getLsbD (n - 1 - i)) := by
  induction k with
  | zero => simp [reflectFirst]
  | succ k ih =>
    have hbit : (reflectFirst v n (k + 1)).getLsbD i =
        ((reflectFirst v n k).getLsbD i || (v.getLsbD k && decide (i = n - 1 - k))) := by
      rw [reflectFirst_succ]
      split <;> simp [*, one_shiftLeft_getLsbD (show n - 1 - k < 32 by omega)]
    rw [hbit, ih (by omega)]
    by_cases hi : i = n - 1 - k
    · have hread : n - 1 - i = k := by omega
      have hlt : i < n := by omega
      simp [hread, hlt, ← hi]
    · have hread : i < n → (n - 1 - i < k + 1 ↔ n - 1 - i < k) := by omega
      by_cases hlt : i < n <;> simp [hi, hlt, hread]

/-- The mirror image of a bit place of a `w`-bit value is a bit place. -/
theorem mirror_lt (w : Width) (i : Nat) : bits w - 1 - i < bits w := by
  have := bits_pos w
  omega

theorem mirror_mirror {w : Width} {i : Nat} (hi : i < bits w) : bits w - 1 - (bits w - 1 - i) = i := by omega

/-- Bit `i` of REFLECT (R67). -/
theorem reflect_getLsbD (v : Word) (w : Width) (i : Nat) :
    (reflect v (bits w)).getLsbD i = (decide (i < bits w) && v.getLsbD (bits w - 1 - i)) := by
  rw [reflect_eq_reflectFirst, reflectFirst_getLsbD v (bits_le w) le_rfl, decide_eq_true (mirror_lt w i),
    Bool.and_true]

/-- Words that agree on every bit below `w` and have none above are equal. -/
theorem eq_of_bits_below {w : Width} {a b : Word} (ha : a.toNat < 2 ^ bits w) (hb : b.toNat < 2 ^ bits w)
    (h : ∀ i, i < bits w → a.getLsbD i = b.getLsbD i) : a = b := by
  refine BitVec.eq_of_getLsbD_eq fun i _ => ?_
  by_cases hi : i < bits w
  · exact h i hi
  · rw [(toNat_lt_iff_bits _ _).mp ha i (by omega), (toNat_lt_iff_bits _ _).mp hb i (by omega)]

theorem mask_lt (w : Width) : (mask w).toNat < 2 ^ bits w := by cases w <;> decide

/-- REFLECT answers a `w`-bit value, whatever word goes in (R67). -/
theorem reflect_lt (v : Word) (w : Width) : (reflect v (bits w)).toNat < 2 ^ bits w := by
  refine (toNat_lt_iff_bits _ _).mpr fun i hi => ?_
  simp [reflect_getLsbD, Nat.not_lt.mpr hi]

theorem reflect_zero (w : Width) : reflect 0#32 (bits w) = 0#32 :=
  BitVec.eq_of_getLsbD_eq fun i _ => by simp [reflect_getLsbD]

theorem reflect_mask (w : Width) : reflect (mask w) (bits w) = mask w := by
  refine eq_of_bits_below (reflect_lt _ w) (mask_lt w) fun i hi => ?_
  simp [reflect_getLsbD, mask_getLsbD, hi, mirror_lt]

/-- REFLECT is an involution on `w`-bit values (R68). -/
theorem reflect_reflect {w : Width} {v : Word} (hv : v.toNat < 2 ^ bits w) :
    reflect (reflect v (bits w)) (bits w) = v := by
  refine eq_of_bits_below (reflect_lt _ w) hv fun i hi => ?_
  simp [reflect_getLsbD, hi, mirror_lt, mirror_mirror hi]

/-- REFLECT distributes over XOR (R68). -/
theorem reflect_xor (a b : Word) (w : Width) :
    reflect (a ^^^ b) (bits w) = reflect a (bits w) ^^^ reflect b (bits w) := by
  refine BitVec.eq_of_getLsbD_eq fun i _ => ?_
  by_cases hi : i < bits w <;> simp [reflect_getLsbD, hi]

/-- REFLECT commutes with complement (R68): the mask is its own reflection. -/
theorem reflect_xor_mask (v : Word) (w : Width) :
    reflect (v ^^^ mask w) (bits w) = reflect v (bits w) ^^^ mask w := by
  rw [reflect_xor, reflect_mask]

end Sys2Proof.Machine
end

/-! ### The bits of a unit, and input reflection (R37, R69) -/

section
namespace Sys2Proof.Machine

/-- The word of `n` bytes has `8 * n` bits. -/
theorem littleEndianWord_lt (f : Nat → Byte) {n : Nat} (hn : n ≤ 4) :
    (littleEndianWord f n).toNat < 2 ^ (8 * n) :=
  littleEndianWord_toNat f hn ▸ littleEndianNat_lt f n

/-- Bit `i` of byte `j` stands at place `8 * j + i`. -/
theorem littleEndianWord_getLsbD (f : Nat → Byte) {n j i : Nat} (hn : n ≤ 4) (hj : j < n) (hi : i < 8) :
    (littleEndianWord f n).getLsbD (8 * j + i) = (f j).getLsbD i := by
  induction n with
  | zero => omega
  | succ n ih =>
    rw [littleEndianWord_succ, BitVec.getLsbD_or, BitVec.getLsbD_shiftLeft, BitVec.getLsbD_setWidth]
    obtain hlt | rfl := Nat.lt_succ_iff_lt_or_eq.mp hj
    · simp [ih (by omega) hlt, show 8 * j + i < 8 * n by omega]
    · have hempty := (toNat_lt_iff_bits _ _).mp (littleEndianWord_lt f (n := j) (by omega)) (8 * j + i) (by omega)
      rw [hempty, Bool.false_or]
      simp [show 8 * j + i < 32 by omega, show i < 32 by omega]

/-- Bit `i` of byte `j` of a unit (R37). -/
theorem dataUnit_getLsbD (d : List Byte) (k : Nat) {w : Width} {j i : Nat} (hj : j < unitBytes w) (hi : i < 8) :
    (dataUnit d k w).getLsbD (8 * j + i) = (d.getD (unitBytes w * k + j) 0#8).getLsbD i := by
  rw [dataUnit_eq_littleEndianWord, littleEndianWord_getLsbD _ (unitBytes_le w) hj hi]

theorem inputUnit_reflected {p : Params} (h : p.reflectIn = true) (w : Width) (u : Word) :
    inputUnit p w u = reflect u (bits w) := by simp [inputUnit, h]

theorem inputUnit_plain {p : Params} (h : p.reflectIn = false) (w : Width) (u : Word) :
    inputUnit p w u = u := by simp [inputUnit, h]

end Sys2Proof.Machine
end

/-! ### The division step and the feeding of a unit (R70, R71) -/

section
namespace Sys2Proof.Machine

/-- Masking a word to `w` bits is taking it modulo `2^w` (R11). -/
theorem and_mask_toNat (v : Word) (w : Width) : (v &&& mask w).toNat = v.toNat % 2 ^ bits w := by
  have hmask : (mask w).toNat = 2 ^ bits w - 1 := by cases w <;> rfl
  rw [BitVec.toNat_and, hmask, Nat.and_two_pow_sub_one_eq_mod]

theorem and_mask_of_lt {v : Word} {w : Width} (hv : v.toNat < 2 ^ bits w) : v &&& mask w = v :=
  BitVec.eq_of_toNat_eq (by rw [and_mask_toNat, Nat.mod_eq_of_lt hv])

/-- The shift of a division step doubles, within `w` bits. -/
theorem shift_and_mask_toNat (r : Word) (w : Width) :
    ((r <<< 1) &&& mask w).toNat = 2 * r.toNat % 2 ^ bits w := by
  rw [and_mask_toNat, BitVec.toNat_shiftLeft, Nat.shiftLeft_eq, pow_one, Nat.mul_comm,
    Nat.mod_mod_of_dvd _ (pow_dvd_pow 2 (bits_le w))]

/-- A division step is the shift, and XORs the generator in if the bit shifted out is 1 (R70). -/
theorem divStepBy_eq_xor (g : Word) (w : Width) (r : Word) :
    divStepBy g w r = ((r <<< 1) &&& mask w) ^^^ (if r.getLsbD (bits w - 1) then g else 0#32) := by
  unfold divStepBy
  split <;> simp

theorem divStepBy_zero (g : Word) (w : Width) : divStepBy g w 0#32 = 0#32 := by
  simp [divStepBy_eq_xor]

/-- A division step is linear over XOR. -/
theorem divStepBy_xor (g : Word) (w : Width) (a b : Word) :
    divStepBy g w (a ^^^ b) = divStepBy g w a ^^^ divStepBy g w b := by
  refine BitVec.eq_of_getLsbD_eq fun i _ => ?_
  simp only [divStepBy_getLsbD, BitVec.getLsbD_xor, Bool.and_xor_distrib_left, Bool.and_xor_distrib_right,
    Bool.xor_assoc, Bool.xor_left_comm]

/-- A division step answers a `w`-bit value, since it masks the shift and the generator has `w` bits (R7). -/
theorem divStepBy_lt {g : Word} {w : Width} (hg : g.toNat < 2 ^ bits w) (r : Word) :
    (divStepBy g w r).toNat < 2 ^ bits w := by
  refine (toNat_lt_iff_bits _ _).mpr fun i hi => ?_
  simp [divStepBy_getLsbD, Nat.not_lt.mpr hi, (toNat_lt_iff_bits _ _).mp hg i hi]

/-- Any number of division steps keep a `w`-bit value in range. -/
theorem iterate_divStepBy_lt {g : Word} {w : Width} (hg : g.toNat < 2 ^ bits w) {r : Word}
    (hr : r.toNat < 2 ^ bits w) (n : Nat) : ((divStepBy g w)^[n] r).toNat < 2 ^ bits w :=
  Function.Iterate.rec (fun v : Word => v.toNat < 2 ^ bits w) hr (fun v _ => divStepBy_lt hg v) n

/-- Feeding a unit ends in a division step, so it answers a `w`-bit value whatever goes in. -/
theorem feedBy_lt {g : Word} {w : Width} (hg : g.toNat < 2 ^ bits w) (r u : Word) :
    (feedBy g w r u).toNat < 2 ^ bits w := by
  obtain ⟨n, hn⟩ := Nat.exists_eq_add_one.mpr (bits_pos w)
  rw [feedBy, hn, Function.iterate_succ_apply', ← hn]
  exact divStepBy_lt hg _

/-- FEED is linear over XOR, as each of its steps is (R78). -/
theorem feedBy_xor (g : Word) (w : Width) (r1 r2 u1 u2 : Word) :
    feedBy g w (r1 ^^^ r2) (u1 ^^^ u2) = feedBy g w r1 u1 ^^^ feedBy g w r2 u2 := by
  have hoperands : (r1 ^^^ r2) ^^^ (u1 ^^^ u2) = (r1 ^^^ u1) ^^^ (r2 ^^^ u2) := by ac_rfl
  have hsteps : Function.Semiconj₂ (divStepBy g w)^[bits w] (· ^^^ ·) (· ^^^ ·) :=
    Function.Semiconj₂.iterate (divStepBy_xor g w) (bits w)
  rw [feedBy, hoperands]
  exact hsteps _ _

theorem feedBy_zero (g : Word) (w : Width) : feedBy g w 0#32 0#32 = 0#32 :=
  Function.iterate_fixed (divStepBy_zero g w) _

end Sys2Proof.Machine
end

/-! ### Words as polynomials over GF(2) (R78) -/

section
namespace Sys2Proof.Machine

open Polynomial

/-- The coefficient of `x^i` is bit `i`. -/
theorem wordPoly_coeff (v : Word) (i : Nat) : (wordPoly v).coeff i = if v.getLsbD i then 1 else 0 := by
  have hterm (j : Nat) : (if v.getLsbD j then (X : (ZMod 2)[X]) ^ j else 0).coeff i =
      if i = j then (if v.getLsbD j then 1 else 0) else 0 := by
    by_cases hij : i = j <;> split <;> simp [coeff_X_pow, hij]
  rw [wordPoly, finsetSum_coeff, Finset.sum_congr rfl fun j _ => hterm j, Finset.sum_ite_eq]
  by_cases hi : i < 32
  · simp [hi]
  · simp [hi, BitVec.getLsbD_of_ge v i (by omega)]

/-- XOR adds polynomials. -/
theorem wordPoly_xor (a b : Word) : wordPoly (a ^^^ b) = wordPoly a + wordPoly b := by
  have hbits : ∀ x y : Bool, (if (x ^^ y) then (1 : ZMod 2) else 0) = (if x then 1 else 0) + if y then 1 else 0 := by
    decide
  ext i
  simp only [wordPoly_coeff, coeff_add, BitVec.getLsbD_xor, hbits]

theorem wordPoly_zero : wordPoly 0#32 = 0 := by
  ext i
  simp [wordPoly_coeff]

/-- A `w`-bit value is a polynomial of degree below `w`. -/
theorem wordPoly_degree_lt {w : Width} {v : Word} (hv : v.toNat < 2 ^ bits w) :
    (wordPoly v).degree < bits w := by
  refine (degree_lt_iff_coeff_zero _ _).mpr fun i hi => ?_
  simp [wordPoly_coeff, (toNat_lt_iff_bits _ _).mp hv i hi]

theorem generator_monic (w : Width) : (generator w).Monic :=
  monic_X_pow_add (wordPoly_degree_lt (poly_lt w))

theorem generator_degree (w : Width) : (generator w).degree = bits w := by
  rw [generator, degree_add_eq_left_of_degree_lt] <;> rw [degree_X_pow]
  exact wordPoly_degree_lt (poly_lt w)

/-- The shift multiplies by `x` and drops the term `x^w`, which over GF(2) is adding it. -/
theorem wordPoly_shift {w : Width} {r : Word} (hr : r.toNat < 2 ^ bits w) :
    wordPoly ((r <<< 1) &&& mask w) = X * wordPoly r + if r.getLsbD (bits w - 1) then X ^ bits w else 0 := by
  have hpos := bits_pos w
  have hle := bits_le w
  have htwo : (1 : ZMod 2) + 1 = 0 := by decide
  ext i
  cases i with
  | zero => split <;> simp [wordPoly_coeff, coeff_X_pow, hpos.ne]
  | succ i =>
    simp only [wordPoly_coeff, coeff_add, coeff_X_mul, BitVec.getLsbD_and, BitVec.getLsbD_shiftLeft, mask_getLsbD]
    obtain hlt | heq | hgt := lt_trichotomy (i + 1) (bits w)
    · have h32 : i + 1 < 32 := by omega
      cases r.getLsbD (bits w - 1) <;> simp [coeff_X_pow, hlt, hlt.ne, h32]
    · have htop : bits w - 1 = i := by omega
      rw [htop]
      cases r.getLsbD i <;> simp [coeff_X_pow, heq, htwo]
    · have hout := (toNat_lt_iff_bits _ _).mp hr i (by omega)
      cases r.getLsbD (bits w - 1) <;> simp [coeff_X_pow, hgt.ne', hgt.not_gt, hout]

/-- A division step multiplies by `x`, and takes one generator off if the bit shifted out is 1 (R70). -/
theorem wordPoly_divStep {w : Width} {r : Word} (hr : r.toNat < 2 ^ bits w) :
    wordPoly (divStep w r) = X * wordPoly r + if r.getLsbD (bits w - 1) then generator w else 0 := by
  rw [divStep, divStepBy_eq_xor, wordPoly_xor, wordPoly_shift hr]
  split
  · rw [generator, add_assoc]
  · rw [wordPoly_zero, add_zero]

/-- So `n` steps multiply by `x^n` modulo the generator. -/
theorem generator_dvd_iterate_divStep {w : Width} {v : Word} (hv : v.toNat < 2 ^ bits w) (n : Nat) :
    generator w ∣ wordPoly ((divStep w)^[n] v) - wordPoly v * X ^ n := by
  induction n with
  | zero => simp
  | succ n ih =>
    have hn : ((divStep w)^[n] v).toNat < 2 ^ bits w := iterate_divStepBy_lt (poly_lt w) hv n
    have hstep : generator w ∣ wordPoly (divStep w ((divStep w)^[n] v)) - X * wordPoly ((divStep w)^[n] v) := by
      rw [wordPoly_divStep hn, add_sub_cancel_left]
      split
      · exact dvd_rfl
      · exact dvd_zero _
    have hsplit : wordPoly ((divStep w)^[n + 1] v) - wordPoly v * X ^ (n + 1) =
        (wordPoly (divStep w ((divStep w)^[n] v)) - X * wordPoly ((divStep w)^[n] v)) +
          X * (wordPoly ((divStep w)^[n] v) - wordPoly v * X ^ n) := by
      rw [Function.iterate_succ_apply']
      ring
    rw [hsplit]
    exact dvd_add hstep (ih.mul_left X)

/-- FEED is congruent to the product modulo the generator and of lower degree, so it is the remainder (R78). -/
theorem wordPoly_feed {w : Width} {r u : Word} (hr : r.toNat < 2 ^ bits w) (hu : u.toNat < 2 ^ bits w) :
    wordPoly (feed w r u) = (wordPoly (r ^^^ u) * X ^ bits w) %ₘ generator w := by
  have hru : (r ^^^ u).toNat < 2 ^ bits w := by
    rw [BitVec.toNat_xor]
    exact Nat.xor_lt_two_pow hr hu
  have hdeg : (wordPoly (feed w r u)).degree < (generator w).degree := by
    rw [generator_degree]
    exact wordPoly_degree_lt (feedBy_lt (poly_lt w) r u)
  calc wordPoly (feed w r u) = wordPoly (feed w r u) %ₘ generator w :=
        ((modByMonic_eq_self_iff (generator_monic w)).mpr hdeg).symm
    _ = (wordPoly (r ^^^ u) * X ^ bits w) %ₘ generator w :=
        modByMonic_eq_of_dvd_sub (generator_monic w) (generator_dvd_iterate_divStep hru (bits w))

end Sys2Proof.Machine
end

/-! ### The output transform (R72) -/

section
namespace Sys2Proof.Machine

/-- Bit `i` of OUT (R72). -/
theorem out_getLsbD (w : Width) (p : Params) (r : Word) {i : Nat} (hi : i < bits w) :
    (out w p r).getLsbD i =
      Bool.xor (if p.reflectOut then r.getLsbD (bits w - 1 - i) else r.getLsbD i) p.invertOut := by
  cases hro : p.reflectOut <;> cases hxo : p.invertOut <;>
    simp [out, hro, hxo, reflect_getLsbD, mask_getLsbD, hi]

/-- Without output options OUT answers the register (R72). -/
theorem out_plain {w : Width} {p : Params} {r : Word} (hro : p.reflectOut = false) (hxo : p.invertOut = false)
    (hr : r.toNat < 2 ^ bits w) : out w p r = r := by
  simp [out, hro, hxo, and_mask_of_lt hr]

/-- Inverting complements what OUT answers (R79). -/
theorem out_inverted (w : Width) (ri ro : Bool) (r : Word) :
    out w { reflectIn := ri, reflectOut := ro, invertOut := true } r =
      out w { reflectIn := ri, reflectOut := ro, invertOut := false } r ^^^ mask w := by
  refine BitVec.eq_of_getLsbD_eq fun i _ => ?_
  by_cases hi : i < bits w <;> simp [out, mask_getLsbD, hi]

/-- OUT applied twice gives the register back, whatever the options. -/
theorem out_out {w : Width} (p : Params) {r : Word} (hr : r.toNat < 2 ^ bits w) : out w p (out w p r) = r := by
  refine eq_of_bits_below (out_lt w p _) hr fun i hi => ?_
  rw [out_getLsbD w p _ hi]
  cases hro : p.reflectOut <;> simp [out_getLsbD, hro, hi, mirror_lt, mirror_mirror hi]

/-- An output option moves the value 1: inverting sets bit 1, and reflecting alone clears bit 0. -/
theorem out_one_ne {w : Width} {p : Params} (h : p.reflectOut = true ∨ p.invertOut = true) :
    out w p 1#32 ≠ 1#32 := by
  intro heq
  cases hxo : p.invertOut with
  | true =>
    have hbit := out_getLsbD w p 1#32 (i := 1) (by cases w <;> decide)
    rw [heq] at hbit
    cases w <;> simp [hxo, bits] at hbit
  | false =>
    have hro : p.reflectOut = true := by simpa [hxo] using h
    have hbit := out_getLsbD w p 1#32 (bits_pos w)
    rw [heq] at hbit
    cases w <;> simp [hro, hxo, bits] at hbit

end Sys2Proof.Machine
end

/-! ### The raw register over whole units (R73 to R76, R80) -/

section
namespace Sys2Proof.Machine

/-- The raw register stays a `w`-bit value (R76). -/
theorem rawBy_lt {g : Word} {w : Width} (hg : g.toNat < 2 ^ bits w) (p : Params) {seed : Word}
    (hseed : seed.toNat < 2 ^ bits w) (d : List Byte) : (rawBy g w p seed d).toNat < 2 ^ bits w :=
  List.foldlRecOn (motive := fun r : Word => r.toNat < 2 ^ bits w) _ _ hseed fun r _ _ _ => feedBy_lt hg r _

theorem rawBy_of_short (g : Word) {w : Width} (p : Params) (seed : Word) {d : List Byte}
    (hd : d.length < unitBytes w) : rawBy g w p seed d = seed := by
  simp [rawBy, unitCount, Nat.div_eq_of_lt hd]

/-- With no whole unit the Engine transforms the seed (R74). -/
theorem crcEngine_of_short {w : Width} (p : Params) (seed : Word) {d : List Byte}
    (hd : d.length < unitBytes w) : crcEngine w p seed d = out w p seed :=
  congrArg (out w p) (rawBy_of_short _ p seed hd)

/-- Without output options the Engine answers the raw register (R80). -/
theorem crcEngine_plain {w : Width} {p : Params} {seed : Word} (hro : p.reflectOut = false)
    (hxo : p.invertOut = false) (hseed : seed.toNat < 2 ^ bits w) (d : List Byte) :
    crcEngine w p seed d = crcRaw w p seed d :=
  out_plain hro hxo (rawBy_lt (poly_lt w) p hseed d)

/-- The bytes after the last whole unit do not reach the divider (R75). -/
theorem rawBy_take_wholeUnits (g : Word) (w : Width) (p : Params) (seed : Word) (d : List Byte) :
    rawBy g w p seed (d.take (unitBytes w * unitCount w d)) = rawBy g w p seed d := by
  have hwhole : (d.take (unitBytes w * unitCount w d)).length = unitBytes w * unitCount w d :=
    List.length_take_of_le (unitBytes_mul_unitCount_le w d)
  have hpartial : (d.drop (unitBytes w * unitCount w d)).length < unitBytes w := by
    have hlen := length_lt_unitBytes_mul w d
    have hpos := unitBytes_pos w
    rw [Nat.mul_add_one] at hlen
    rw [List.length_drop]
    omega
  conv_rhs => rw [← List.take_append_drop (unitBytes w * unitCount w d) d]
  exact (rawBy_append_partial g p seed (by rw [hwhole, Nat.mul_mod_right]) hpartial).symm

theorem unitCount_append {w : Width} {a : List Byte} (ha : a.length % unitBytes w = 0) (b : List Byte) :
    unitCount w (a ++ b) = unitCount w a + unitCount w b := by
  simp only [unitCount, List.length_append]
  exact Nat.add_div_of_dvd_right (Nat.dvd_of_mod_eq_zero ha)

/-- The units after whole ones are those of the data after them. -/
theorem dataUnit_append_right {w : Width} {a : List Byte} (ha : a.length % unitBytes w = 0) (b : List Byte)
    (k : Nat) : dataUnit (a ++ b) (unitCount w a + k) w = dataUnit b k w := by
  have hlen : unitBytes w * unitCount w a = a.length := Nat.mul_div_cancel' (Nat.dvd_of_mod_eq_zero ha)
  refine List.foldl_ext _ _ _ fun u j _ => ?_
  rw [Nat.mul_add, hlen, Nat.add_assoc, List.getD_append_right _ _ _ _ (Nat.le_add_right _ _),
    Nat.add_sub_cancel_left]

/-- The raw register chains over whole units (R80). -/
theorem rawBy_append (g : Word) {w : Width} (p : Params) (seed : Word) {a : List Byte}
    (ha : a.length % unitBytes w = 0) (b : List Byte) :
    rawBy g w p seed (a ++ b) = rawBy g w p (rawBy g w p seed a) b := by
  have hfirst : (List.range (unitCount w a)).foldl
      (fun r k => feedBy g w r (inputUnit p w (dataUnit (a ++ b) k w))) seed = rawBy g w p seed a :=
    List.foldl_ext _ _ _ fun r k hk => by rw [dataUnit_append (List.mem_range.mp hk)]
  rw [rawBy, unitCount_append ha, List.range_add, List.foldl_append, hfirst, List.foldl_map]
  exact List.foldl_ext _ _ _ fun r k _ => by rw [dataUnit_append_right ha]

/-- Two COMPUTEs on empty data apply the output transform twice, one applies it once. -/
theorem crcEngine_one_nil_not_chaining {w : Width} {p : Params} (h : p.reflectOut = true ∨ p.invertOut = true) :
    crcEngine w p 1#32 ([] ++ []) ≠ crcEngine w p (crcEngine w p 1#32 []) [] := by
  have hone : (1#32 : Word).toNat < 2 ^ bits w := by cases w <;> decide
  have hnil (seed : Word) : crcEngine w p seed [] = out w p seed := crcEngine_of_short p seed (unitBytes_pos w)
  rw [List.append_nil, hnil, hnil, out_out p hone]
  exact out_one_ne h

end Sys2Proof.Machine
end

/-! ### The obligations of 40_engine -/

section
namespace Sys2Proof.Machine

/-- Settles O3, by the bits of REFLECT. -/
theorem reflectMovesEveryBit : Obligations.ReflectMovesEveryBit := by
  refine ⟨fun w v _ => ⟨reflect_lt v w, fun i hi => ?_⟩, fun w => ⟨reflect_zero w, reflect_mask w⟩,
    by decide +kernel⟩
  rw [reflect_getLsbD, mirror_mirror hi, decide_eq_true (mirror_lt w i), Bool.true_and]

/-- Settles O4: the mask is its own reflection, so complement is an XOR that reflection distributes over. -/
theorem reflectLaws : Obligations.ReflectLaws := by
  refine ⟨fun w v hv => ⟨reflect_reflect hv, reflect_xor_mask v w⟩, fun w a b _ _ => reflect_xor a b w,
    fun w r _ => ?_⟩
  rw [reflect_xor_mask]
  rfl

/-- Settles O5: place `8 * j + i` of the unit holds bit `i` of byte `j`, and reflection counts it from the top. -/
theorem inputReflectionFeedsBytesInOrder : Obligations.InputReflectionFeedsBytesInOrder := by
  refine ⟨fun w p d k j i hp _ hj hi => ?_, fun w p u hp => inputUnit_plain hp w u⟩
  have hplace : 8 * j + i < bits w := by
    have := eight_mul_unitBytes w
    omega
  rw [inputUnit_reflected hp, reflect_getLsbD, mirror_mirror hplace, dataUnit_getLsbD d k hj hi,
    decide_eq_true (mirror_lt w _), Bool.true_and]

/-- Settles O6: the masked shift doubles modulo `2^w`, and the generator is XORed in by the bit shifted out. -/
theorem divisionStepShiftsAndSubtracts : Obligations.DivisionStepShiftsAndSubtracts := by
  refine ⟨fun w r _ => ?_, fun w => divStepBy_zero _ w, ?_, by decide +kernel, by decide +kernel⟩
  · rw [← shift_and_mask_toNat]
    exact apply_ite BitVec.toNat _ _ _
  · exact BitVec.zero_xor

/-- Settles O7: each division step is a multiplication by `x` modulo the generator. -/
theorem feedIsRemainderModuloGenerator : Obligations.FeedIsRemainderModuloGenerator :=
  fun _ _ _ hr hu => wordPoly_feed hr hu

/-- Settles O8: each division step is linear over XOR, on all words. -/
theorem feedIsLinearOverXor : Obligations.FeedIsLinearOverXor :=
  ⟨fun w r1 r2 u1 u2 _ _ _ _ => feedBy_xor _ w r1 r2 u1 u2, fun w => feedBy_zero _ w⟩

/-- Settles O9, by the bits of OUT and its last mask. -/
theorem outputTransformBitByBit : Obligations.OutputTransformBitByBit :=
  ⟨fun w p r _ _ hi => out_getLsbD w p r hi, out_lt, by decide +kernel⟩

/-- Settles O10: feeding keeps the register in range, and OUT masks it. -/
theorem engineStaysInRange : Obligations.EngineStaysInRange :=
  fun w p _ d hseed => ⟨rawBy_lt (poly_lt w) p hseed d, out_lt w p _⟩

/-- Settles O13: no unit is fed, so the raw register is the seed. -/
theorem emptyInputTransformsTheSeed : Obligations.EmptyInputTransformsTheSeed := by
  refine ⟨fun w p seed d hd => crcEngine_of_short p seed hd, fun w p seed d hd hro hxo hseed => ?_,
    by decide +kernel⟩
  rw [crcEngine_of_short p seed hd, out_plain hro hxo hseed]

/-- Settles O14: what the cut takes off is a partial unit. -/
theorem engineReadsWholeUnitsOnly : Obligations.EngineReadsWholeUnitsOnly :=
  ⟨fun w p seed d => congrArg (out w p) (rawBy_take_wholeUnits _ w p seed d).symm, by decide +kernel⟩

/-- Settles O15: the raw register is the same, and OUT with inversion is the complement of OUT without. -/
theorem inversionComplementsTheResult : Obligations.InversionComplementsTheResult :=
  ⟨fun w ri ro _ _ _ => out_inverted w ri ro _, by decide⟩

/-- Settles O16: the raw register chains; without output options it is the result; with one, seed 1 and empty data
do not chain. -/
theorem wholeUnitsChain : Obligations.WholeUnitsChain := by
  refine ⟨fun w p seed a b ha => rawBy_append _ p seed ha b, fun w p seed a b ha hseed hro hxo => ?_,
    fun w p h => ⟨1#32, [], [], by cases w <;> decide, Nat.zero_mod _, crcEngine_one_nil_not_chaining h⟩,
    by decide +kernel⟩
  have hraw : (crcRaw w p seed a).toNat < 2 ^ bits w := rawBy_lt (poly_lt w) p hseed a
  rw [crcEngine_plain hro hxo hseed, crcEngine_plain hro hxo hseed, crcEngine_plain hro hxo hraw]
  exact rawBy_append _ p seed ha b

end Sys2Proof.Machine
end

/-! # Proofs of the family 41_channel: what each command makes of its slot -/

/-! ### A command to a slot that takes commands -/

section
namespace Sys2Proof.Machine

/-- The slot put in place of the selected one takes commands if its own mark is clear. -/
theorem ready_putSlot {s : State} {old sl : Slot} (h : selected s = some old) (hmark : sl.mark = none) :
    Ready (putSlot sl s) sl :=
  ⟨selected_putSlot h sl, hmark⟩

section
variable (i : Instr) {s : State} {sl : Slot} {ch : Channel} {r : Response} (h : Ready s sl)
include h

/-- A command settles its slot by the answer of the slot's channel. -/
theorem exec_of_ready : exec i s = .next (putSlot (settle i.words (answerOf i sl.channel) sl) s) :=
  (exec_eq_command i s).trans (command_of_ready _ _ h)

/-- A command that the channel accepts (R30, R49). -/
theorem exec_of_accept (ha : answerOf i sl.channel = .accept ch r) :
    exec i s = .next (putSlot (acceptAt i.words ch r sl) s) := by
  rw [exec_of_ready i h, ha]
  rfl

/-- A command that the channel refuses (R95, R96). -/
theorem exec_of_refuse {why : Reason} (ha : answerOf i sl.channel = .refuse why) :
    exec i s = .next (putSlot (refuseAt why sl) s) := by
  rw [exec_of_ready i h, ha]
  rfl

/-- A command other than NEW to an Absent slot (R87). -/
theorem exec_of_absent (habsent : sl.channel = none) (hi : ∀ w ri ro xo seed, i ≠ .new w ri ro xo seed) :
    exec i s = .next (putSlot (refuseAt .noChannel sl) s) :=
  exec_of_refuse i h (habsent ▸ answerOf_absent hi)

/-- The slot of an accepted command has its mark clear and its position advanced. -/
theorem exec_accepted_position (ha : answerOf i sl.channel = .accept ch r) :
    ∃ t tl, exec i s = .next t ∧ selected t = some tl ∧ tl.mark = none ∧ tl.position = sl.position + 1 :=
  ⟨_, _, exec_of_accept i h ha, selected_putSlot h.1 _, h.2, rfl⟩

end

/-- A command that a present channel accepts leaves its slot ready, with the channel of the answer. -/
theorem exec_of_present (i : Instr) {s : State} {sl : Slot} {ch ch' : Channel} {r : Response}
    (h : ReadyChannel s sl ch) (ha : answerOf i (some ch) = .accept ch' r) :
    exec i s = .next (putSlot (acceptAt i.words ch' r sl) s) ∧
      ReadyChannel (putSlot (acceptAt i.words ch' r sl) s) (acceptAt i.words ch' r sl) ch' := by
  obtain ⟨hready, hch⟩ := h
  exact ⟨exec_of_accept i hready (hch ▸ ha), ready_putSlot hready.1 hready.2, rfl⟩

/-- Accepting a command with the channel as it was changes the slot's stream and interface alone. -/
theorem acceptAt_same_channel (len : Nat) {ch : Channel} (r : Response) {sl : Slot} (h : sl.channel = some ch) :
    acceptAt len ch r sl =
      { sl with stream := sl.stream.drop len, position := sl.position + 1, responses := sl.responses ++ [r] } := by
  simp [acceptAt, h]

end Sys2Proof.Machine
end

/-! ### The answers of NEW, RESET and ENCHK on both sides of `2^w` (R81 to R83) -/

section
namespace Sys2Proof.Machine

/-- An operand in range is the number its word holds (R8). -/
theorem toNat_ofNat_eq_of_lt_bits {w : Width} {n : Nat} (h : n < 2 ^ bits w) : (BitVec.ofNat 32 n).toNat = n :=
  (BitVec.toNat_ofNat n 32).trans <| Nat.mod_eq_of_lt (h.trans_le (Nat.pow_le_pow_right Nat.two_pos (bits_le w)))

theorem newAnswer_of_lt {w : Width} {seed : Nat} (h : seed < 2 ^ bits w) (ri ro xo : Bool) :
    newAnswer w ri ro xo seed =
      .accept (builtChannel w { reflectIn := ri, reflectOut := ro, invertOut := xo } (BitVec.ofNat 32 seed)) .ack :=
  if_neg (Nat.not_le.mpr h)

theorem newAnswer_of_le {w : Width} {seed : Nat} (h : 2 ^ bits w ≤ seed) (ri ro xo : Bool) :
    newAnswer w ri ro xo seed = .refuse .seedRange :=
  if_pos h

section
variable {ch : Channel}

theorem resetAnswer_of_lt {seed : Nat} (h : seed < 2 ^ bits ch.w) :
    resetAnswer seed ch = .accept { ch with reg := BitVec.ofNat 32 seed } .ack :=
  if_neg (Nat.not_le.mpr h)

theorem resetAnswer_of_le {seed : Nat} (h : 2 ^ bits ch.w ≤ seed) : resetAnswer seed ch = .refuse .seedRange :=
  if_pos h

theorem enchkAnswer_of_lt {ec : Nat} (h : ec < 2 ^ bits ch.w) (el : Nat) :
    enchkAnswer ec el ch =
      .accept { ch with checkEnabled := true, expectedCheck := BitVec.ofNat 32 ec, expectedLength := el } .ack :=
  if_neg (Nat.not_le.mpr h)

theorem enchkAnswer_of_le {ec : Nat} (h : 2 ^ bits ch.w ≤ ec) (el : Nat) :
    enchkAnswer ec el ch = .refuse .checkRange :=
  if_pos h

end

/-- A present channel accepts every command whose operands are in its range (R87). -/
theorem answerOf_present_accepts {i : Instr} {ch : Channel}
    (hnew : ∀ w ri ro xo seed, i = .new w ri ro xo seed → seed < 2 ^ bits w)
    (hreset : ∀ seed, i = .reset seed → seed < 2 ^ bits ch.w)
    (henchk : ∀ ec el, i = .enchk ec el → ec < 2 ^ bits ch.w) :
    ∃ ch' r, answerOf i (some ch) = .accept ch' r := by
  cases i with
  | new w ri ro xo seed => exact ⟨_, _, newAnswer_of_lt (hnew w ri ro xo seed rfl) ri ro xo⟩
  | reset seed => exact ⟨_, _, resetAnswer_of_lt (hreset seed rfl)⟩
  | enchk ec el => exact ⟨_, _, enchkAnswer_of_lt (henchk ec el rfl) el⟩
  | compute _ | trigmm | event _ => exact ⟨_, _, rfl⟩

/-- The header of NEW as a sum of its fields' places (R53). -/
theorem headerOf_new_eq_sum (w : Width) (ri ro xo : Bool) (seed : Nat) :
    headerOf (.new w ri ro xo seed) =
      BitVec.ofNat 32 (1 + 16 * (codeOfWidth w).toNat + 64 * ri.toNat + 128 * ro.toNat + 256 * xo.toNat) := by
  simp only [headerOf]
  cases w <;> revert ri ro xo <;> decide

end Sys2Proof.Machine
end

/-! ### The channel after COMPUTE (R84, R88 to R91) -/

section
namespace Sys2Proof.Machine

@[simp] theorem computedChannel_w (d : List Byte) (ch : Channel) : (computedChannel d ch).w = ch.w := by
  simp [computedChannel]
@[simp] theorem computedChannel_params (d : List Byte) (ch : Channel) :
    (computedChannel d ch).params = ch.params := by
  simp [computedChannel]
@[simp] theorem computedChannel_reg (d : List Byte) (ch : Channel) :
    (computedChannel d ch).reg = crcEngine ch.w ch.params ch.reg d := by
  simp [computedChannel, checksumOf]
@[simp] theorem computedChannel_checkEnabled (d : List Byte) (ch : Channel) :
    (computedChannel d ch).checkEnabled = ch.checkEnabled := by
  simp [computedChannel]
@[simp] theorem computedChannel_expectedCheck (d : List Byte) (ch : Channel) :
    (computedChannel d ch).expectedCheck = ch.expectedCheck := by
  simp [computedChannel]
@[simp] theorem computedChannel_expectedLength (d : List Byte) (ch : Channel) :
    (computedChannel d ch).expectedLength = ch.expectedLength := by
  simp [computedChannel]

/-- The mismatch flag is the outcome of this COMPUTE's own comparison, whatever it was before (R84, R88). -/
@[simp] theorem computedChannel_mismatchFlag (d : List Byte) (ch : Channel) :
    (computedChannel d ch).mismatchFlag =
      (ch.checkEnabled && crcEngine ch.w ch.params ch.reg d != ch.expectedCheck) :=
  checkResult_mismatchFlag _ _ _ rfl

/-- So is the length error flag (R84, R88). -/
@[simp] theorem computedChannel_lengthErrorFlag (d : List Byte) (ch : Channel) :
    (computedChannel d ch).lengthErrorFlag =
      (ch.checkEnabled && d.length / unitBytes ch.w != ch.expectedLength) :=
  checkResult_lengthErrorFlag _ _ _ rfl

/-- The whole channel after COMPUTE (R84). -/
theorem computedChannel_eq (d : List Byte) (ch : Channel) :
    computedChannel d ch =
      { ch with
        reg := crcEngine ch.w ch.params ch.reg d
        mismatchFlag := ch.checkEnabled && crcEngine ch.w ch.params ch.reg d != ch.expectedCheck
        lengthErrorFlag := ch.checkEnabled && d.length / unitBytes ch.w != ch.expectedLength } := by
  rw [computedChannel_writes_reg_flags, computedChannel_mismatchFlag, computedChannel_lengthErrorFlag]
  rfl

/-- COMPUTE answers the checksum twice and the two flags (R84 step 5, R89). -/
theorem computeAnswer_eq (d : List Byte) (ch : Channel) :
    computeAnswer d ch = .accept (computedChannel d ch)
      (.computed (crcEngine ch.w ch.params ch.reg d) (crcEngine ch.w ch.params ch.reg d)
        (ch.checkEnabled && crcEngine ch.w ch.params ch.reg d != ch.expectedCheck)
        (ch.checkEnabled && d.length / unitBytes ch.w != ch.expectedLength)) := by
  rw [computeAnswer, computedChannel_mismatchFlag, computedChannel_lengthErrorFlag]
  rfl

/-- Among the values of `w` bits some expected check fails against a checksum, and one does not. -/
theorem exists_expectedCheck {w : Width} {c : Word} (hc : c.toNat < 2 ^ bits w) (mm : Bool) :
    ∃ ec : Word, ec.toNat < 2 ^ bits w ∧ (c != ec) = mm := by
  cases mm with
  | false => exact ⟨c, hc, bne_self_eq_false c⟩
  | true =>
    refine ⟨c ^^^ 1#32, ?_, ?_⟩
    · rw [BitVec.toNat_xor]
      exact Nat.xor_lt_two_pow hc (Nat.one_lt_two_pow (bits_pos w).ne')
    · have hne : c ^^^ 1#32 ≠ c := by simp
      exact bne_iff_ne.mpr hne.symm

/-- Some expected length differs from a word count, and one does not. -/
theorem exists_expectedLength (n : Nat) (le : Bool) : ∃ el : Nat, (n != el) = le := by
  cases le with
  | false => exact ⟨n, bne_self_eq_false n⟩
  | true => exact ⟨n + 1, by simp⟩

end Sys2Proof.Machine
end

/-! ### A command as a function of the channel (R92) -/

section
namespace Sys2Proof.Machine

/-- One answer makes the same channel, the same new responses and the same refusal of two slots that take commands
and hold equal channels. -/
theorem settle_congr (len : Nat) (a : Answer) {sl1 sl2 : Slot} (hmark1 : sl1.mark = none) (hmark2 : sl2.mark = none)
    (hch : sl1.channel = sl2.channel) :
    (settle len a sl1).channel = (settle len a sl2).channel ∧
      (∃ given, (settle len a sl1).responses = sl1.responses ++ given ∧
        (settle len a sl2).responses = sl2.responses ++ given) ∧
      (settle len a sl1).mark.map Mark.reason = (settle len a sl2).mark.map Mark.reason := by
  cases a with
  | accept ch r => exact ⟨rfl, ⟨[r], rfl, rfl⟩, by simp [settle, hmark1, hmark2]⟩
  | refuse r => exact ⟨hch, ⟨[], by simp [settle], by simp [settle]⟩, rfl⟩

end Sys2Proof.Machine
end

/-! ### The obligations of 41_channel -/

section
namespace Sys2Proof.Machine

/-- Settles O29, by the side of `2^w` on which the seed lies; what the slot held before does not matter. -/
theorem newBuildsTheChannel : Obligations.NewBuildsTheChannel := by
  refine ⟨fun w ri ro xo seed => ?_, fun s sl w ri ro xo seed h hseed => ⟨?_, toNat_ofNat_eq_of_lt_bits hseed⟩,
    fun s sl w ri ro xo seed h hseed => exec_of_refuse _ h (newAnswer_of_le hseed ri ro xo)⟩
  · rw [encode, headerOf_new_eq_sum]
    cases w <;> rfl
  · have hexec := exec_of_accept (.new w ri ro xo seed) h (newAnswer_of_lt hseed ri ro xo)
    rwa [acceptAt, h.2] at hexec

/-- Settles O30, by the side of `2^w` on which the seed lies. -/
theorem resetWritesTheRegisterAlone : Obligations.ResetWritesTheRegisterAlone :=
  ⟨fun _ => rfl,
    fun _ _ _ seed h hseed =>
      ⟨(exec_of_present (.reset seed) h (resetAnswer_of_lt hseed)).1, toNat_ofNat_eq_of_lt_bits hseed⟩,
    fun _ _ _ _ ⟨h, hch⟩ hseed => exec_of_refuse _ h (hch ▸ resetAnswer_of_le hseed),
    fun _ _ _ h habsent => exec_of_absent _ h habsent (by simp)⟩

/-- Settles O31, by the side of `2^w` on which the expected check lies. -/
theorem enchkArmsTheCheck : Obligations.EnchkArmsTheCheck :=
  ⟨fun _ _ => rfl,
    fun _ _ _ ec el h hec =>
      ⟨(exec_of_present (.enchk ec el) h (enchkAnswer_of_lt hec el)).1, toNat_ofNat_eq_of_lt_bits hec⟩,
    fun _ _ _ _ el ⟨h, hch⟩ hec => exec_of_refuse _ h (hch ▸ enchkAnswer_of_le hec el),
    fun _ _ _ _ h habsent => exec_of_absent _ h habsent (by simp)⟩

/-- Settles O32: after the flags are cleared each is the outcome of its own comparison. -/
theorem computeChecksItsResult : Obligations.ComputeChecksItsResult := by
  refine ⟨fun d => ⟨?_, rfl⟩, fun s sl ch d h => ?_,
    fun s sl d h habsent => exec_of_absent _ h habsent (by simp)⟩
  · simp [encode, operandsOf, Laws.EncodedForm.packBytes_length, dataWords]
    omega
  · have hexec := (exec_of_present (.compute d) h (computeAnswer_eq d ch)).1
    rwa [computedChannel_eq] at hexec

/-- Settles O33: TRIGMM is accepted in either check state. -/
theorem trigmmForcesTheMismatchFlag : Obligations.TrigmmForcesTheMismatchFlag :=
  ⟨rfl, fun _ _ _ h => (exec_of_present .trigmm h rfl).1, fun _ _ h habsent => exec_of_absent _ h habsent (by simp)⟩

/-- Settles O34: EVENT leaves its slot with the same channel, so that the next EVENT reads the same flag. -/
theorem eventReadsWithoutClearing : Obligations.EventReadsWithoutClearing := by
  refine ⟨rfl, by decide, fun s sl ch k h => ?_, fun s sl ch k h => ?_,
    fun s sl k h habsent => exec_of_absent _ h habsent (by simp)⟩
  · have hexec := (exec_of_present (.event k) h rfl).1
    rw [acceptAt_same_channel _ _ h.2] at hexec
    cases k <;> exact hexec
  · obtain ⟨hfirst, hready⟩ := exec_of_present (.event k) h rfl
    obtain ⟨hsecond, hready2⟩ := exec_of_present (.event k) hready rfl
    refine ⟨_, _, flagOf k ch, hfirst, hsecond, ?_⟩
    rw [hready2.1.1]
    simp

/-- Settles O35, by cases on the command. -/
theorem whichCommandsASlotAccepts : Obligations.WhichCommandsASlotAccepts := by
  refine ⟨fun s sl ch i ⟨h, hch⟩ hnew hreset henchk => ?_,
    fun s sl w ri ro xo seed h _ hseed => exec_accepted_position _ h (newAnswer_of_lt hseed ri ro xo),
    fun s sl i h habsent hi => ⟨_, exec_of_absent _ h habsent hi, selected_putSlot h.1 _⟩⟩
  obtain ⟨ch', r, ha⟩ := answerOf_present_accepts hnew hreset henchk
  exact exec_accepted_position _ h (hch ▸ ha)

/-- Settles O36: the second COMPUTE clears what the first left and compares anew; the configuration is the same. -/
theorem flagsAreOfTheLastCompute : Obligations.FlagsAreOfTheLastCompute := by
  intro s sl ch a b h
  obtain ⟨hfirst, hready⟩ := exec_of_present (.compute a) h rfl
  obtain ⟨hsecond, hready2⟩ := exec_of_present (.compute b) hready rfl
  exact ⟨_, _, _, _, hfirst, hsecond, hready2.1.1, hready2.2, by simp, by simp⟩

/-- Settles O37: the checksum and the word count do not depend on the expected values, which are chosen each against
its own comparison. -/
theorem mismatchAndLengthErrorIndependent : Obligations.MismatchAndLengthErrorIndependent := by
  intro w p reg d mm le hreg
  obtain ⟨ec, hec, hmm⟩ := exists_expectedCheck (out_lt w p (crcRaw w p reg d)) mm
  obtain ⟨el, hle⟩ := exists_expectedLength (d.length / unitBytes w) le
  refine ⟨{ builtChannel w p reg with checkEnabled := true, expectedCheck := ec, expectedLength := el },
    rfl, rfl, rfl, rfl, ⟨hreg, hreg, hec⟩, ?_, ?_⟩
  · rw [computedChannel_mismatchFlag]
    exact hmm
  · rw [computedChannel_lengthErrorFlag]
    exact hle

/-- Settles O38: with no whole unit the checksum is the transformed register and the word count is 0. -/
theorem emptyDataInCheckMode : Obligations.EmptyDataInCheckMode := by
  intro s sl ch d h hon hshort
  obtain ⟨hexec, hready⟩ := exec_of_present (.compute d) h rfl
  have hsum := crcEngine_of_short ch.params ch.reg hshort
  have hcount : d.length / unitBytes ch.w = 0 := Nat.div_eq_of_lt hshort
  refine ⟨_, _, _, hexec, hready.1.1, hready.2, ?_, ?_, ?_⟩
  · rw [computedChannel_reg, hsum]
  · rw [computedChannel_lengthErrorFlag, hon, hcount]
    simpa using eq_comm
  · rw [computedChannel_mismatchFlag, hon, hsum]
    simp

/-- Settles O49, by cases on the answer, which is a function of the channel and the command. -/
theorem commandDependsOnItsChannelAlone : Obligations.CommandDependsOnItsChannelAlone := by
  intro i s1 s2 sl1 sl2 h1 h2 hch
  have hexec2 := exec_of_ready i h2
  rw [← hch] at hexec2
  exact ⟨_, _, _, _, exec_of_ready i h1, hexec2, selected_putSlot h1.1 _, selected_putSlot h2.1 _,
    settle_congr i.words _ h1.2 h2.2 hch⟩

end Sys2Proof.Machine
end

/-! # Proofs of the family 60_exceptions: refusals and marked slots -/

/-! ### What a turn does to the slots, and which slots it keeps -/

section
namespace Sys2Proof.Machine

/-- A command that answers a next state names a slot the block has. -/
theorem sel_lt_of_exec {i : Instr} {s t : State} (h : exec i s = .next t) : s.sel < s.slots.length := by
  obtain ⟨_, hs, _⟩ := exec_cases h
  exact selected_eq_some hs

/-- A step that answers a next state is the turn of a slot the block has. -/
theorem sel_lt_of_step {s t : State} (h : step s = .next t) : s.sel < s.slots.length := by
  by_contra hlt
  have hs : selected s = none := List.getElem?_eq_none (Nat.not_lt.mp hlt)
  simp [step, fetch, hs] at h

/-- A command changes the slots by the selected one alone. -/
theorem exec_slots {i : Instr} {s t : State} (h : exec i s = .next t) :
    t.slots = s.slots.modify s.sel (slotAfterExec i) := by
  cases (exec_eq_modifySelected i (sel_lt_of_exec h)).symm.trans h
  rfl

/-- A step changes the slots by the selected one alone. -/
theorem step_slots {s t : State} (h : step s = .next t) : t.slots = s.slots.modify s.sel slotAfterTurn := by
  cases (step_eq_modifySelected (sel_lt_of_step h)).symm.trans h
  rfl

/-- A slot that `f` leaves as it is stays where it is, whichever slot `f` is applied to. -/
theorem getElem?_modify_of_fixed {f : Slot → Slot} {slots : List Slot} {k : Nat} {sl : Slot}
    (hk : slots[k]? = some sl) (hf : f sl = sl) (j : Nat) : (slots.modify j f)[k]? = some sl := by
  by_cases hj : j = k <;> simp [hj, hk, hf]

/-- A marked slot executes no command (R96). -/
theorem slotAfterExec_of_marked (i : Instr) {sl : Slot} {m : Mark} (hm : sl.mark = some m) :
    slotAfterExec i sl = sl := by
  simp only [slotAfterExec, hm]

/-- The turn of a marked slot finds nothing to execute (R96). -/
theorem slotAfterTurn_of_marked {sl : Slot} {m : Mark} (hm : sl.mark = some m) : slotAfterTurn sl = sl := by
  simp only [slotAfterTurn, fetchSlot, hm]

/-- The turn of a slot whose stream the decoder refuses marks the slot, and passes (R63, R96). -/
theorem step_of_rejected {s : State} {sl : Slot} {r : Reason} (h : Ready s sl) (hne : sl.stream ≠ [])
    (hd : decode sl.stream = .reject r) : step s = .next (endTurn (putSlot (refuseAt r sl) s)) := by
  simp only [step, fetch_of_stream h hne, hd, fetchedOf, rejectCommand_of_selected r h.1]

end Sys2Proof.Machine
end

/-! ### The obligations of 60_exceptions -/

section
namespace Sys2Proof.Machine

/-- Settles O40: the turn puts the marked slot in place of the selected one, and passes. -/
theorem decoderRefusalMarksTheSlot : Obligations.DecoderRefusalMarksTheSlot :=
  fun _ _ _ h hne hd => ⟨_, step_of_rejected h hne hd, rfl⟩

/-- Settles O41: a command or a turn of another slot does not reach the marked one, and its own leaves it as it is. -/
theorem markedSlotNeverChanges : Obligations.MarkedSlotNeverChanges := by
  refine ⟨fun i s t k sl m hk hm h => ?_, fun s t k sl m hk hm h => ?_⟩
  · rw [exec_slots h]
    exact getElem?_modify_of_fixed hk (slotAfterExec_of_marked i hm) s.sel
  · rw [step_slots h]
    exact getElem?_modify_of_fixed hk (slotAfterTurn_of_marked hm) s.sel

/-- Settles O46: a command and a turn each change the selected slot in place. -/
theorem everyStepAnswersANextState : Obligations.EveryStepAnswersANextState :=
  fun _ h => ⟨⟨_, step_eq_modifySelected h, List.length_modify ..⟩, fun i => exec_answers_next i h⟩

/-- Settles O42: the decoder's order by running it on one header for each pair of checks; an Absent slot refuses
before any operand is looked at. -/
theorem refusalCodesAndOrder : Obligations.RefusalCodesAndOrder :=
  ⟨rfl, by decide, by decide, by decide, by decide, fun _ _ h habsent =>
    ⟨exec_of_absent _ h habsent (by simp), exec_of_absent _ h habsent (by simp)⟩⟩

end Sys2Proof.Machine
end

/-! # Proofs of the family 70_reset_and_hazards: reset, and how a slot's run ends -/

/-! ### Slots after a block reset (R109) -/

section
namespace Sys2Proof.Machine

/-- The block starts with every slot absent. -/
theorem eq_absent_of_mem_reset {sl : Slot} (h : sl ∈ State.reset.slots) : sl = Slot.absent :=
  List.eq_of_mem_replicate h

/-- A block reset leaves every slot absent, whatever it held before. -/
theorem eq_absent_of_mem_blockReset {s : State} {sl : Slot} (h : sl ∈ (blockReset s).slots) : sl = Slot.absent := by
  obtain ⟨_, _, hsl⟩ := List.mem_map.mp h
  exact hsl.symm

@[simp] theorem reset_slots_length : State.reset.slots.length = Config.nch := List.length_replicate

/-- The block has a slot (R9). -/
theorem nch_pos : 0 < Config.nch := Nat.succ_pos _

/-- A slot after a block reset holds no channel and no mark, and has accepted as many commands as it has
given responses: none. -/
theorem absent_slotInv : SlotInv Slot.absent := by simp [SlotInv, Slot.absent]

end Sys2Proof.Machine
end

/-! ### The turns a slot's run has left (R116, R118) -/

section
namespace Sys2Proof.Machine

/-- A bound on the turns after which the slot's run has ended: none once the mark is set (R96), otherwise one for
each word of the stream, as every accepted command takes at least its header from it (R63). -/
def turnsLeft (sl : Slot) : Nat :=
  match sl.mark with
  | some _ => 0
  | none => sl.stream.length

theorem turnsLeft_of_marked {sl : Slot} {m : Mark} (hm : sl.mark = some m) : turnsLeft sl = 0 := by
  simp only [turnsLeft, hm]

theorem turnsLeft_of_unmarked {sl : Slot} (hmark : sl.mark = none) : turnsLeft sl = sl.stream.length := by
  simp only [turnsLeft, hmark]

theorem turnsLeft_le (sl : Slot) : turnsLeft sl ≤ sl.stream.length := by
  cases hm : sl.mark with
  | some m => simp [turnsLeft_of_marked hm]
  | none => simp [turnsLeft_of_unmarked hm]

/-- A slot has no turns left exactly at the two ends of R116. -/
theorem turnsLeft_eq_zero_iff {sl : Slot} : turnsLeft sl = 0 ↔ NormalEnd sl ∨ RefusedEnd sl := by
  cases hm : sl.mark with
  | some m => simp [turnsLeft_of_marked hm, RefusedEnd, hm]
  | none => simp [turnsLeft_of_unmarked hm, NormalEnd, RefusedEnd, hm]

/-- What the decoder reads is never nothing. -/
theorem fetchedOf_ne_quiet (d : Decoded) : fetchedOf d ≠ .quiet := by
  cases d <;> simp [fetchedOf]

/-- A turn finds nothing to execute only where the slot's run has ended. -/
theorem ended_of_fetchSlot_quiet {sl : Slot} (h : fetchSlot sl = .quiet) : NormalEnd sl ∨ RefusedEnd sl := by
  cases hm : sl.mark with
  | some m => exact .inr ⟨m, hm⟩
  | none =>
    cases hstream : sl.stream with
    | nil => exact .inl ⟨hstream, hm⟩
    | cons w ws =>
      simp only [fetchSlot, hm, hstream] at h
      exact absurd h (fetchedOf_ne_quiet _)

/-- The turn of a slot at its normal end finds nothing to execute (R64, R116). -/
theorem slotAfterTurn_of_normalEnd {sl : Slot} (h : NormalEnd sl) : slotAfterTurn sl = sl := by
  obtain ⟨hempty, hmark⟩ := h
  simp only [slotAfterTurn, fetchSlot, hempty, hmark]

/-- The turn of a slot whose run has ended leaves it as it is. -/
theorem slotAfterTurn_of_ended {sl : Slot} (h : NormalEnd sl ∨ RefusedEnd sl) : slotAfterTurn sl = sl := by
  obtain hnormal | ⟨m, hm⟩ := h
  · exact slotAfterTurn_of_normalEnd hnormal
  · exact slotAfterTurn_of_marked hm

/-- Every command has its header word (R51). -/
theorem words_pos (i : Instr) : 0 < i.words := by cases i <;> simp [Instr.words]

/-- A command to an unmarked slot takes its words from the stream, or marks the slot. -/
theorem turnsLeft_settle_le {len : Nat} (hlen : 0 < len) (a : Answer) {sl : Slot} (hmark : sl.mark = none) :
    turnsLeft (settle len a sl) ≤ turnsLeft sl - 1 := by
  obtain ⟨hclear, _, _, hstream, _⟩ | ⟨r, hrefused⟩ := settle_cases len a hmark
  · rw [turnsLeft_of_unmarked hclear, turnsLeft_of_unmarked hmark, hstream, List.length_drop]
    omega
  · simp [hrefused, turnsLeft]

/-- Each turn of a slot whose run has not ended leaves it one turn fewer. -/
theorem turnsLeft_slotAfterTurn_le (sl : Slot) : turnsLeft (slotAfterTurn sl) ≤ turnsLeft sl - 1 := by
  cases hf : fetchSlot sl with
  | noSlot => exact absurd hf (fetchSlot_ne_noSlot sl)
  | quiet =>
    have hended := ended_of_fetchSlot_quiet hf
    simp [slotAfterTurn_of_ended hended, turnsLeft_eq_zero_iff.mpr hended]
  | rejected r => simp [slotAfterTurn, hf, turnsLeft_of_marked (refuseAt_mark r sl)]
  | command i =>
    cases hm : sl.mark with
    | some m => simp [slotAfterTurn_of_marked hm, turnsLeft_of_marked hm]
    | none =>
      simp only [slotAfterTurn, hf, slotAfterExec, hm]
      exact turnsLeft_settle_le (words_pos i) _ hm

/-- `n` turns use up `n` of the turns left. -/
theorem turnsLeft_iterate_le (n : Nat) (sl : Slot) : turnsLeft (slotAfterTurn^[n] sl) ≤ turnsLeft sl - n := by
  induction n generalizing sl with
  | zero => exact le_rfl
  | succ n ih =>
    have hturn := turnsLeft_slotAfterTurn_le sl
    have hrest := ih (slotAfterTurn sl)
    rw [Function.iterate_succ_apply]
    omega

/-- With the turn kept at a slot, a run gives the slot its turns one after the other and nothing stops it (R44). -/
theorem run_of_kept_turn (n : Nat) {s : State} {sl : Slot} (hs : selected s = some sl) (hkept : s.schedule = []) :
    ∃ t, Host.Core.run Sys2Proof.core n s = .next t ∧ selected t = some (slotAfterTurn^[n] sl) := by
  induction n generalizing s sl with
  | zero => exact ⟨s, rfl, hs⟩
  | succ n ih =>
    have hstep := step_eq_modifySelected (selected_eq_some hs)
    rw [modifySelected_of_selected _ hs] at hstep
    rw [run_succ_of_step n hstep, Function.iterate_succ_apply]
    refine ih ?_ (by simp [hkept])
    have hput := selected_putSlot hs (slotAfterTurn sl)
    simpa [selected, hkept] using hput

end Sys2Proof.Machine
end

/-! ### The obligations of 70_reset_and_hazards -/

section
namespace Sys2Proof.Machine

/-- Settles O43: a step changes the slots by one slot's turn, and an ended slot's own turn leaves it as it is. -/
theorem endedSlotsStayAsTheyAre : Obligations.EndedSlotsStayAsTheyAre := by
  intro s t k sl hk hended hstep
  rw [step_slots hstep]
  exact getElem?_modify_of_fixed hk (slotAfterTurn_of_ended hended) s.sel

/-- Settles O44: each turn uses up one of the slot's turns left, of which there are at most as many as words. -/
theorem runEndsWithinItsStream : Obligations.RunEndsWithinItsStream := by
  intro s sl hs hkept
  obtain ⟨t, hrun, ht⟩ := run_of_kept_turn sl.stream.length hs hkept
  refine ⟨t, _, hrun, ht, turnsLeft_eq_zero_iff.mp ?_⟩
  have hused := turnsLeft_iterate_le sl.stream.length sl
  have hbound := turnsLeft_le sl
  omega

/-- Settles O1: every slot of either state is `Slot.absent`. -/
theorem blockResetLeavesEverySlotAbsent : Obligations.BlockResetLeavesEverySlotAbsent := by
  refine ⟨⟨reset_slots_length, nch_pos, fun sl h => ?_⟩, fun s => ⟨List.length_map .., fun sl h => ?_⟩⟩
  · rw [eq_absent_of_mem_reset h]
    exact ⟨rfl, rfl⟩
  · rw [eq_absent_of_mem_blockReset h]
    exact ⟨rfl, rfl⟩

/-- Settles O53: the turn is at a slot of the block, no turn is to follow, and an absent slot meets its invariant. -/
theorem resetMeetsTheInvariant : Obligations.ResetMeetsTheInvariant := by
  refine ⟨reset_slots_length ▸ nch_pos, fun k hk => absurd hk List.not_mem_nil, fun sl h => ?_⟩
  rw [eq_absent_of_mem_reset h]
  exact absent_slotInv

end Sys2Proof.Machine
end

/-! # Proofs of the family other: the reference checksums (95_test_vectors.md W1, V5, V6) -/

section
namespace Sys2Proof.Machine

/-- The Engine with the generator named, so that it can be evaluated for either value of POLY8 (R7). -/
theorem crcEngine_of_poly {w : Width} {g : Word} (h : poly w = g) (p : Params) (seed : Word) (d : List Byte) :
    crcEngine w p seed d = crcBy g w p seed d := by
  rw [crcEngine, h]

/-- Settles O17: W1's text is the two parts of R80's examples, CRC-16 is evaluated, and CRC-8 is evaluated for each
value POLY8 can have. -/
theorem referenceChecksums : Obligations.ReferenceChecksums := by
  obtain ⟨-, -, -, -, -, hplain, -, -, hinverted⟩ := wholeUnitsChain
  refine ⟨hplain, hinverted, by decide +kernel, ?_⟩
  obtain h07 | h1D : poly .w8 = 0x07#32 ∨ poly .w8 = 0x1D#32 := config_poly8_cases
  · refine .inl ⟨h07, ?_⟩
    rw [crcEngine_of_poly h07]
    decide +kernel
  · refine .inr ⟨h1D, ?_⟩
    rw [crcEngine_of_poly h1D]
    decide +kernel

end Sys2Proof.Machine
end
